-- ==== Sys2Proof/Word.lean ====
section
/-!
DEFINITION. The word types of the xvm core block: a memory byte, the 64-bit value every port carries, and the
160-bit Decoded Instruction Word.
-/

namespace Sys2Proof

/-- The addressable unit of memory (20_memory.md R60). -/
abbrev Byte := BitVec 8

/-- The value a register port, an operand or an address carries (00_scope.md R9). -/
abbrev Word := BitVec 64

/-- The Decoded Instruction Word that arrives on the `decoded` port (30_encoding.md R101). -/
abbrev Diw := BitVec 160

end Sys2Proof
end

