-- ==== Sys2Proof/Config.lean ====
section
/-!
DEFINITION. The implementation parameters of 00_scope.md R6 that a step consults, as plain data: every OPEN parameter
is a field, every policy parameter a field with all of the values the spec gives it. Nothing here has a default in the
machine: a statement over every state is a statement over every value of these fields (log 1).
-/

namespace Sys2Proof

/-- The operating mode strap (10_state.md R32). `prot` is the spec's Protected. -/
inductive Mode where
  | real
  | prot
  | long
deriving DecidableEq, Repr

/-- `VIDEO_CELL_BYTES`, OPEN in 1 or 2 (00_scope.md R6). -/
inductive CellBytes where
  | one
  | two
deriving DecidableEq, Repr

/-- `UNMAPPED_REG_POLICY` (40_block_primitives.md R137): `zero` is the spec's default. -/
inductive UnmappedRegPolicy where
  | zero
  | fault
deriving DecidableEq, Repr

/-- `CMP_GT_POLICY` (40_block_primitives.md R142): `clearBoth` is the spec's default. -/
inductive CmpGtPolicy where
  | clearBoth
  | unchanged
deriving DecidableEq, Repr

/-- `MEM_WRITE_WIDTH` (41_engine_cycle.md R170): `modeDefault` is the spec's default. -/
inductive MemWriteWidth where
  | modeDefault
  | operandDecoded
deriving DecidableEq, Repr

/-- `LONG_MEM_READ` (60_exceptions.md R244): `flat` is the spec's default. -/
inductive LongMemRead where
  | flat
  | fault
deriving DecidableEq, Repr

/-- `FETCH_WINDOW` (41_engine_cycle.md R161): `strict15` is the spec's default. -/
inductive FetchWindow where
  | strict15
  | clip
deriving DecidableEq, Repr

/-- One line of the decoder table: at this fetch address, in this mode, this byte window decodes to this word
(30_encoding.md R112). -/
structure DecodeEntry where
  addr   : Word
  mode   : Mode
  window : List Byte
  answer : Diw
deriving DecidableEq, Repr

/-- The parameters of 00_scope.md R6 that a step consults. `decoder` is the external decoder as a finite table; what
it does not list is the decode-failure signal (93_implementation_defined.md U22, log 2). -/
structure Config where
  memSize       : Nat
  videoBase     : Word
  videoCell     : CellBytes
  unmappedReg   : UnmappedRegPolicy
  cmpGt         : CmpGtPolicy
  memWriteWidth : MemWriteWidth
  longMemRead   : LongMemRead
  fetchWindow   : FetchWindow
  decoder       : List DecodeEntry
deriving DecidableEq, Repr

/-- The spec's default policies, `MEM_SIZE` and reference values (00_scope.md R6, 95_test_vectors.md), with an empty
decoder table. Only `State.reset` and the tests use it (log 2, log 3). -/
def Config.reference : Config where
  memSize       := 0x6400000
  videoBase     := 0xB8000
  videoCell     := .one
  unmappedReg   := .zero
  cmpGt         := .clearBoth
  memWriteWidth := .modeDefault
  longMemRead   := .flat
  fetchWindow   := .strict15
  decoder       := []

end Sys2Proof
end

