-- ==== Sys2Proof/Syntax.lean ====
section
/-!
DEFINITION. The Decoded Instruction as the block sees it (30_encoding.md R100): a mnemonic, up to two operands, an
optional segment override and the encoded length. One constructor per row of spec/opcode_table.json; the operand types
of a constructor are the shapes that 30_encoding.md R109 admits for it.
-/

namespace Sys2Proof

/-- The six segment registers (10_state.md R26), in the order of their ids (30_encoding.md R104). -/
inductive SegReg where
  | es
  | cs
  | ss
  | ds
  | fs
  | gs
deriving DecidableEq, Repr

/-- The width codes 0 to 3 of an operand (30_encoding.md R102). -/
inductive OpWidth where
  | w8
  | w16
  | w32
  | w64
deriving DecidableEq, Repr

/-- The bytes of an operand width, `2^w` (30_encoding.md R103). -/
def OpWidth.bytes : OpWidth → Nat
  | .w8  => 1
  | .w16 => 2
  | .w32 => 4
  | .w64 => 8

/-- An immediate: the literal the decoded instruction carries, and its width (30_encoding.md R103, R108). -/
structure Imm where
  width : OpWidth
  val   : Word
deriving DecidableEq, Repr

/-- An operand as the word tags it (30_encoding.md R102, R103): `reg` holds the 8-bit register id, `mem` the decoded
width and the displacement. -/
inductive Operand where
  | none
  | reg (id : BitVec 8)
  | mem (width : OpWidth) (disp : Word)
  | imm (i : Imm)
deriving DecidableEq, Repr

/-- The admitted destinations: Register or Memory (30_encoding.md R109). -/
inductive Dest where
  | reg (id : BitVec 8)
  | mem (width : OpWidth) (disp : Word)
deriving DecidableEq, Repr

/-- The admitted sources: Register, Memory or Immediate (30_encoding.md R109). -/
inductive Source where
  | reg (id : BitVec 8)
  | mem (width : OpWidth) (disp : Word)
  | imm (i : Imm)
deriving DecidableEq, Repr

/-- What every word carries beside mnemonic and operands: `LEN` and the segment override (30_encoding.md R101, R105). -/
structure Head where
  len : BitVec 4
  ovr : Option SegReg
deriving DecidableEq, Repr

/-- The instructions: one constructor per row of spec/opcode_table.json (30_encoding.md R106). The last six are the rows
that partition the unrecognized codes; `lo` is what such a row leaves free of the code `MN`. -/
inductive Instr where
  | mov (h : Head) (d : Dest) (r : Source)
  | add (h : Head) (d : Dest) (r : Source)
  | sub (h : Head) (d : Dest) (r : Source)
  | and (h : Head) (d : Dest) (r : Source)
  | or (h : Head) (d : Dest) (r : Source)
  | cmp (h : Head) (d : Dest) (r : Source)
  | jmp (h : Head) (t : Source)
  | je (h : Head) (t : Imm)
  | jne (h : Head) (t : Imm)
  | cli (h : Head)
  | int (h : Head) (vec : Byte)
  | lgdt (h : Head) (w : OpWidth) (disp : Word)
  | hlt (h : Head)
  | unrec00 (h : Head)
  | unrec0E (h : Head) (lo : BitVec 1)
  | unrec10 (h : Head) (lo : BitVec 4)
  | unrec20 (h : Head) (lo : BitVec 5)
  | unrec40 (h : Head) (lo : BitVec 6)
  | unrec80 (h : Head) (lo : BitVec 7)
deriving DecidableEq, Repr

/-- The length and override of an instruction. -/
def Instr.head : Instr → Head
  | .mov h _ _ => h
  | .add h _ _ => h
  | .sub h _ _ => h
  | .and h _ _ => h
  | .or h _ _ => h
  | .cmp h _ _ => h
  | .jmp h _ => h
  | .je h _ => h
  | .jne h _ => h
  | .cli h => h
  | .int h _ => h
  | .lgdt h _ _ => h
  | .hlt h => h
  | .unrec00 h => h
  | .unrec0E h _ => h
  | .unrec10 h _ => h
  | .unrec20 h _ => h
  | .unrec40 h _ => h
  | .unrec80 h _ => h

end Sys2Proof
end

