-- ==== Sys2Proof/WellFormed.lean ====
section
/-!
DEFINITION. What makes a decoded instruction well formed beyond its shape (30_encoding.md R101, R103, R110): a length of
1 to 15 and immediates that fit their width. And the constraints of 00_scope.md R6 on the parameters.
-/

namespace Sys2Proof

/-- `LEN` is 1 to 15 (30_encoding.md R101, R110). -/
def Head.wf (h : Head) : Bool := h.len != 0

/-- The payload bits above the immediate's width are zero (30_encoding.md R103, R108, R110). -/
def Imm.wf (i : Imm) : Bool := i.val.toNat < 2 ^ (8 * i.width.bytes)

/-- An immediate source fits its width; the other kinds carry no check. -/
def Source.wf : Source → Bool
  | .reg _   => true
  | .mem _ _ => true
  | .imm i   => i.wf

/-- A well-formed instruction: what a word that is not malformed decodes to (30_encoding.md R110). -/
def Instr.wf : Instr → Bool
  | .mov h _ r => h.wf && r.wf
  | .add h _ r => h.wf && r.wf
  | .sub h _ r => h.wf && r.wf
  | .and h _ r => h.wf && r.wf
  | .or h _ r => h.wf && r.wf
  | .cmp h _ r => h.wf && r.wf
  | .jmp h t => h.wf && t.wf
  | .je h t => h.wf && t.wf
  | .jne h t => h.wf && t.wf
  | .cli h => h.wf
  | .int h _ => h.wf
  | .lgdt h _ _ => h.wf
  | .hlt h => h.wf
  | .unrec00 h => h.wf
  | .unrec0E h _ => h.wf
  | .unrec10 h _ => h.wf
  | .unrec20 h _ => h.wf
  | .unrec40 h _ => h.wf
  | .unrec80 h _ => h.wf

/-- The bytes of one video cell. -/
def CellBytes.toNat : CellBytes → Nat
  | .one => 1
  | .two => 2

/-- The constraint of 00_scope.md R6 on `VIDEO_BASE`, and that every byte of memory has a 64-bit address (log 20). -/
abbrev Config.Wf (c : Config) : Prop :=
  c.videoBase.toNat + 2000 * c.videoCell.toNat ≤ c.memSize ∧ c.memSize ≤ 2 ^ 64

end Sys2Proof
end

