-- ==== Sys2Proof/Decode.lean ====
section
/-!
DEFINITION. The Decoded Instruction Word read and written (30_encoding.md R101 to R110): field extraction, the
malformed words, the operand payloads, the admitted shapes, the encoder, and the rows of spec/opcode_table.json.
-/

namespace Sys2Proof

/-! ### Fields of the word (R101) -/

/-- The 32-bit header `H`, bits 31:0. -/
def Diw.header (d : Diw) : BitVec 32 := d.extractLsb' 0 32

/-- The payload `P0` of operand0, bits 95:32. -/
def Diw.payload0 (d : Diw) : Word := d.extractLsb' 32 64

/-- The payload `P1` of operand1, bits 159:96. -/
def Diw.payload1 (d : Diw) : Word := d.extractLsb' 96 64

/-- The word with header `h` and payloads `p0`, `p1`: the spec's `H / P0 / P1`. -/
def Diw.pack (h : BitVec 32) (p0 p1 : Word) : Diw := p1 ++ p0 ++ h

/-- `MN`, the mnemonic code. -/
def Diw.mn (d : Diw) : BitVec 8 := (Diw.header d).extractLsb' 0 8

/-- `LEN`, the encoded length in bytes. -/
def Diw.len (d : Diw) : BitVec 4 := (Diw.header d).extractLsb' 8 4

/-- `SEG`, the override code. -/
def Diw.seg (d : Diw) : BitVec 3 := (Diw.header d).extractLsb' 12 3

/-- Header bit 15, reserved. -/
def Diw.reserved15 (d : Diw) : BitVec 1 := (Diw.header d).extractLsb' 15 1

/-- `K0`, the kind of operand0. -/
def Diw.kind0 (d : Diw) : BitVec 2 := (Diw.header d).extractLsb' 16 2

/-- `K1`, the kind of operand1. -/
def Diw.kind1 (d : Diw) : BitVec 2 := (Diw.header d).extractLsb' 18 2

/-- `W0`, the width code of operand0. -/
def Diw.width0 (d : Diw) : BitVec 2 := (Diw.header d).extractLsb' 20 2

/-- `W1`, the width code of operand1. -/
def Diw.width1 (d : Diw) : BitVec 2 := (Diw.header d).extractLsb' 22 2

/-- Header bits 31:24, reserved. -/
def Diw.reserved24 (d : Diw) : BitVec 8 := (Diw.header d).extractLsb' 24 8

/-! ### Operands (R102, R103, R105) -/

/-- Width codes 0 to 3 (R102). -/
def OpWidth.ofCode (w : BitVec 2) : OpWidth :=
  if w = 0 then .w8 else if w = 1 then .w16 else if w = 2 then .w32 else .w64

/-- The code of a width (R102). -/
def OpWidth.code : OpWidth → BitVec 2
  | .w8  => 0
  | .w16 => 1
  | .w32 => 2
  | .w64 => 3

/-- An operand of kind `k`, width code `w`, payload `p` (R102, R103). -/
def Operand.ofFields (k w : BitVec 2) (p : Word) : Operand :=
  if k = 0 then .none
  else if k = 1 then .reg (p.extractLsb' 0 8)
  else if k = 2 then .mem (OpWidth.ofCode w) p
  else .imm ⟨OpWidth.ofCode w, p⟩

/-- operand0 of a word. -/
def Diw.operand0 (d : Diw) : Operand := .ofFields (Diw.kind0 d) (Diw.width0 d) (Diw.payload0 d)

/-- operand1 of a word. -/
def Diw.operand1 (d : Diw) : Operand := .ofFields (Diw.kind1 d) (Diw.width1 d) (Diw.payload1 d)

/-- An operand carries no immediate with bits above its width (R108, R110). -/
def Operand.fits : Operand → Bool
  | .imm i => i.wf
  | _      => true

/-- The override of the codes 0 to 6 (R105); the reserved code 7 never reaches it. -/
def SegReg.ofCode (c : BitVec 3) : Option SegReg :=
  if c = 1 then some .es else if c = 2 then some .cs else if c = 3 then some .ss
  else if c = 4 then some .ds else if c = 5 then some .fs else if c = 6 then some .gs
  else none

/-- The code of an override (R105). -/
def SegReg.code : Option SegReg → BitVec 3
  | none     => 0
  | some .es => 1
  | some .cs => 2
  | some .ss => 3
  | some .ds => 4
  | some .fs => 5
  | some .gs => 6

/-- `LEN` and override of a word. -/
def Diw.head (d : Diw) : Head := ⟨Diw.len d, SegReg.ofCode (Diw.seg d)⟩

/-- The malformed words of R110. -/
def Diw.malformed (d : Diw) : Bool :=
  Diw.reserved15 d != 0 || Diw.reserved24 d != 0 || Diw.len d == 0 || Diw.seg d == 7
    || !(Diw.operand0 d).fits || !(Diw.operand1 d).fits

/-! ### Admitted shapes (R109) -/

/-- Register and Memory are the admitted destinations. -/
def Operand.toDest : Operand → Option Dest
  | .reg id   => some (.reg id)
  | .mem w d  => some (.mem w d)
  | .imm _    => Option.none
  | .none     => Option.none

/-- Register, Memory and Immediate are the admitted sources. -/
def Operand.toSource : Operand → Option Source
  | .reg id   => some (.reg id)
  | .mem w d  => some (.mem w d)
  | .imm i    => some (.imm i)
  | .none     => Option.none

/-- What a word is: an instruction, a malformed word (a decode failure, R110), or a well-formed word of the named
mnemonic in a shape R109 does not admit (refused, 93_implementation_defined.md U6). -/
inductive Decoded where
  | ok (i : Instr)
  | malformed
  | notAdmitted (mnemonic : String)
deriving DecidableEq, Repr

/-- Two operands: a destination and a source. -/
def Decoded.binary (name : String) (mk : Dest → Source → Instr) (o0 o1 : Operand) : Decoded :=
  match o0.toDest, o1.toSource with
  | some d, some r => .ok (mk d r)
  | _, _           => .notAdmitted name

/-- One source operand and no second one. -/
def Decoded.unary (name : String) (mk : Source → Instr) (o0 o1 : Operand) : Decoded :=
  match o0.toSource, o1 with
  | some r, .none => .ok (mk r)
  | _, _          => .notAdmitted name

/-- One immediate operand and no second one. -/
def Decoded.immediate (name : String) (mk : Imm → Instr) (o0 o1 : Operand) : Decoded :=
  match o0, o1 with
  | .imm i, .none => .ok (mk i)
  | _, _          => .notAdmitted name

/-- One 8-bit immediate operand and no second one. -/
def Decoded.vector (name : String) (mk : Byte → Instr) (o0 o1 : Operand) : Decoded :=
  match o0, o1 with
  | .imm ⟨.w8, v⟩, .none => .ok (mk (v.extractLsb' 0 8))
  | _, _                 => .notAdmitted name

/-- One Memory operand and no second one. -/
def Decoded.memory (name : String) (mk : OpWidth → Word → Instr) (o0 o1 : Operand) : Decoded :=
  match o0, o1 with
  | .mem w d, .none => .ok (mk w d)
  | _, _            => .notAdmitted name

/-- No operand. -/
def Decoded.bare (name : String) (i : Instr) (o0 o1 : Operand) : Decoded :=
  match o0, o1 with
  | .none, .none => .ok i
  | _, _         => .notAdmitted name

/-- The codes of no mnemonic, 0x0E to 0xFF, by the table's rows (R106, R223). -/
def Decoded.unrecognized (h : Head) (mn : BitVec 8) : Instr :=
  if mn.toNat < 0x10 then .unrec0E h (mn.extractLsb' 0 1)
  else if mn.toNat < 0x20 then .unrec10 h (mn.extractLsb' 0 4)
  else if mn.toNat < 0x40 then .unrec20 h (mn.extractLsb' 0 5)
  else if mn.toNat < 0x80 then .unrec40 h (mn.extractLsb' 0 6)
  else .unrec80 h (mn.extractLsb' 0 7)

/-- The shape of a word that is not malformed, by its mnemonic code (R106, R109). -/
def Diw.shape (d : Diw) : Decoded :=
  let h := Diw.head d
  let o0 := Diw.operand0 d
  let o1 := Diw.operand1 d
  match (Diw.mn d).toNat with
  | 0x00 => .ok (.unrec00 h)
  | 0x01 => .binary "Mov" (.mov h) o0 o1
  | 0x02 => .binary "Add" (.add h) o0 o1
  | 0x03 => .binary "Sub" (.sub h) o0 o1
  | 0x04 => .binary "And" (.and h) o0 o1
  | 0x05 => .binary "Or" (.or h) o0 o1
  | 0x06 => .binary "Cmp" (.cmp h) o0 o1
  | 0x07 => .unary "Jmp" (.jmp h) o0 o1
  | 0x08 => .immediate "Je" (.je h) o0 o1
  | 0x09 => .immediate "Jne" (.jne h) o0 o1
  | 0x0A => .bare "Cli" (.cli h) o0 o1
  | 0x0B => .vector "Int" (.int h) o0 o1
  | 0x0C => .memory "Lgdt" (.lgdt h) o0 o1
  | 0x0D => .bare "Hlt" (.hlt h) o0 o1
  | _    => .ok (Decoded.unrecognized h (Diw.mn d))

/-- The decoder of the block: total on every 160-bit word (30_encoding.md R101 to R110). -/
def decode (d : Diw) : Decoded :=
  if Diw.malformed d then .malformed else Diw.shape d

/-! ### The encoder -/

/-- The mnemonic code of an instruction (R106). -/
def Instr.code : Instr → BitVec 8
  | .mov _ _ _ => 0x01
  | .add _ _ _ => 0x02
  | .sub _ _ _ => 0x03
  | .and _ _ _ => 0x04
  | .or _ _ _ => 0x05
  | .cmp _ _ _ => 0x06
  | .jmp _ _ => 0x07
  | .je _ _ => 0x08
  | .jne _ _ => 0x09
  | .cli _ => 0x0A
  | .int _ _ => 0x0B
  | .lgdt _ _ _ => 0x0C
  | .hlt _ => 0x0D
  | .unrec00 _ => 0x00
  | .unrec0E _ lo => 0b0000111#7 ++ lo
  | .unrec10 _ lo => 0b0001#4 ++ lo
  | .unrec20 _ lo => 0b001#3 ++ lo
  | .unrec40 _ lo => 0b01#2 ++ lo
  | .unrec80 _ lo => 0b1#1 ++ lo

/-- The width a canonical encoder writes for a register id: the view's, 16 bits for a segment register (R102). For an
unmapped id R102 names no width; DESIGN CHOICE (log 21): the width of its class where the class holds registers (0x28 is
written as 16 bits), and 8 bits for the classes 6 to 15 of R104, which hold none. -/
def regWidth (id : BitVec 8) : OpWidth :=
  match (id.extractLsb' 4 4).toNat with
  | 2 => .w16
  | 3 => .w32
  | 4 => .w64
  | 5 => .w16
  | _ => .w8

/-- The kind code of an operand (R102). -/
def Operand.kind : Operand → BitVec 2
  | .none    => 0
  | .reg _   => 1
  | .mem _ _ => 2
  | .imm _   => 3

/-- The width code of an operand (R102); `None` is written 0. -/
def Operand.widthCode : Operand → BitVec 2
  | .none    => 0
  | .reg id  => (regWidth id).code
  | .mem w _ => w.code
  | .imm i   => i.width.code

/-- The payload of an operand (R103); unused bits are written 0. -/
def Operand.payload : Operand → Word
  | .none    => 0
  | .reg id  => id.setWidth 64
  | .mem _ d => d
  | .imm i   => i.val

/-- A destination as an operand. -/
def Dest.toOperand : Dest → Operand
  | .reg id  => .reg id
  | .mem w d => .mem w d

/-- A source as an operand. -/
def Source.toOperand : Source → Operand
  | .reg id  => .reg id
  | .mem w d => .mem w d
  | .imm i   => .imm i

/-- operand0 and operand1 of an instruction; the unrecognized ones are written with none. -/
def Instr.operands : Instr → Operand × Operand
  | .mov _ d r => (d.toOperand, r.toOperand)
  | .add _ d r => (d.toOperand, r.toOperand)
  | .sub _ d r => (d.toOperand, r.toOperand)
  | .and _ d r => (d.toOperand, r.toOperand)
  | .or _ d r => (d.toOperand, r.toOperand)
  | .cmp _ d r => (d.toOperand, r.toOperand)
  | .jmp _ t => (t.toOperand, .none)
  | .je _ t => (.imm t, .none)
  | .jne _ t => (.imm t, .none)
  | .cli _ => (.none, .none)
  | .int _ v => (.imm ⟨.w8, v.setWidth 64⟩, .none)
  | .lgdt _ w d => (.mem w d, .none)
  | .hlt _ => (.none, .none)
  | .unrec00 _ => (.none, .none)
  | .unrec0E _ _ => (.none, .none)
  | .unrec10 _ _ => (.none, .none)
  | .unrec20 _ _ => (.none, .none)
  | .unrec40 _ _ => (.none, .none)
  | .unrec80 _ _ => (.none, .none)

/-- The header of an instruction (R101). -/
def encodeHeader (h : Head) (mn : BitVec 8) (o0 o1 : Operand) : BitVec 32 :=
  0#8 ++ o1.widthCode ++ o0.widthCode ++ o1.kind ++ o0.kind ++ 0#1 ++ SegReg.code h.ovr ++ h.len ++ mn

/-- The canonical word of an instruction (R101 to R106). -/
def encode (i : Instr) : Diw :=
  Diw.pack (encodeHeader i.head i.code i.operands.1 i.operands.2) i.operands.1.payload i.operands.2.payload

/-! ### The opcode table -/

/-- A row of spec/opcode_table.json: a header `H` belongs to it when `H &&& mask = pattern` (R106). -/
structure TableRow where
  mnemonic : String
  pattern  : BitVec 32
  mask     : BitVec 32
deriving DecidableEq, Repr

/-- The row of an instruction's mnemonic in spec/opcode_table.json. -/
def Instr.row : Instr → TableRow
  | .mov _ _ _ => ⟨"Mov", 0x00000001, 0xFF0080FF⟩
  | .add _ _ _ => ⟨"Add", 0x00000002, 0xFF0080FF⟩
  | .sub _ _ _ => ⟨"Sub", 0x00000003, 0xFF0080FF⟩
  | .and _ _ _ => ⟨"And", 0x00000004, 0xFF0080FF⟩
  | .or _ _ _ => ⟨"Or", 0x00000005, 0xFF0080FF⟩
  | .cmp _ _ _ => ⟨"Cmp", 0x00000006, 0xFF0080FF⟩
  | .jmp _ _ => ⟨"Jmp", 0x00000007, 0xFF0C80FF⟩
  | .je _ _ => ⟨"Je", 0x00030008, 0xFF0F80FF⟩
  | .jne _ _ => ⟨"Jne", 0x00030009, 0xFF0F80FF⟩
  | .cli _ => ⟨"Cli", 0x0000000A, 0xFF0F80FF⟩
  | .int _ _ => ⟨"Int", 0x0003000B, 0xFF3F80FF⟩
  | .lgdt _ _ _ => ⟨"Lgdt", 0x0002000C, 0xFF0F80FF⟩
  | .hlt _ => ⟨"Hlt", 0x0000000D, 0xFF0F80FF⟩
  | .unrec00 _ => ⟨"unrecognized__MN_0x00", 0x00000000, 0xFF0080FF⟩
  | .unrec0E _ _ => ⟨"unrecognized__MN_0x0E-0x0F", 0x0000000E, 0xFF0080FE⟩
  | .unrec10 _ _ => ⟨"unrecognized__MN_0x10-0x1F", 0x00000010, 0xFF0080F0⟩
  | .unrec20 _ _ => ⟨"unrecognized__MN_0x20-0x3F", 0x00000020, 0xFF0080E0⟩
  | .unrec40 _ _ => ⟨"unrecognized__MN_0x40-0x7F", 0x00000040, 0xFF0080C0⟩
  | .unrec80 _ _ => ⟨"unrecognized__MN_0x80-0xFF", 0x00000080, 0xFF008080⟩

/-- A header belongs to a row (R106). -/
def TableRow.holds (t : TableRow) (h : BitVec 32) : Bool := h &&& t.mask == t.pattern

/-- The instruction decoded from the `nbits`-bit number `w`, laid into the word from header bit 0 up, every bit above
`nbits` zero. -/
def decodeTableWord (nbits w : Nat) : Option Instr :=
  match decode (BitVec.ofNat 160 (w % 2 ^ nbits)) with
  | .ok i          => some i
  | .malformed     => none
  | .notAdmitted _ => none

end Sys2Proof
end

