-- ==== Sys2Proof/Machine/State.lean ====
section
/-!
DEFINITION. The state of the xvm core block as plain data (10_state.md R20 to R36), the reasons a step can stop, and the
state at the first fetch (R40).
-/

namespace Sys2Proof.Machine

/-- The eight general-purpose cells, in the order of their indices 0 to 7 (10_state.md R20). -/
inductive Gpr where
  | rax
  | rcx
  | rdx
  | rbx
  | rsp
  | rbp
  | rsi
  | rdi
deriving DecidableEq, Repr

/-- The contents of the eight cells: one 64-bit store each (10_state.md R20). -/
structure Gprs where
  rax : Word
  rcx : Word
  rdx : Word
  rbx : Word
  rsp : Word
  rbp : Word
  rsi : Word
  rdi : Word
deriving DecidableEq, Repr

/-- The six independent 16-bit segment registers (10_state.md R26). -/
structure Segs where
  es : BitVec 16
  cs : BitVec 16
  ss : BitVec 16
  ds : BitVec 16
  fs : BitVec 16
  gs : BitVec 16
deriving DecidableEq, Repr

/-- The names of the descriptor-cache entries (10_state.md R33). -/
inductive DescName where
  | cs
  | ds
  | ss
  | es
  | fs
  | gs
  | tr
  | ldtr
deriving DecidableEq, Repr

/-- A descriptor-cache entry (10_state.md R33). -/
structure Descriptor where
  selector : BitVec 16
  base     : BitVec 64
  limit    : BitVec 32
  access   : BitVec 16
deriving DecidableEq, Repr

/-- The eight descriptor-cache entries (10_state.md R33). -/
structure DescCache where
  cs   : Descriptor
  ds   : Descriptor
  ss   : Descriptor
  es   : Descriptor
  fs   : Descriptor
  gs   : Descriptor
  tr   : Descriptor
  ldtr : Descriptor
deriving DecidableEq, Repr

/-- A slot of the descriptor table (10_state.md R34). -/
structure GdtEntry where
  base   : BitVec 64
  limit  : BitVec 32
  access : BitVec 16
deriving DecidableEq, Repr

/-- The four error kinds with the information each records (60_exceptions.md R240). -/
inductive ErrorKind where
  | decodeFailure (addr : Word)
  | storageFailure
  | outOfBounds (addr : Word) (count : Nat)
  | unsupportedTranslation (seg : BitVec 16) (off : Word)
deriving DecidableEq, Repr

/-- The engine state between steps (10_state.md R35). Decode and Execute are phases inside an atomic step (log 12). -/
inductive Engine where
  | fetch
  | halted
  | faulted (kind : ErrorKind)
deriving DecidableEq, Repr

/-- A diagnostic event of the `log` port (41_engine_cycle.md R176). -/
inductive LogEvent where
  | lgdt (limit : BitVec 16) (base : BitVec 32)
  | unrecognized (mn : BitVec 8)
deriving DecidableEq, Repr

/-- Memory: the non-zero bytes by physical address, addresses rising. An unlisted byte is 0, as at construction
(10_state.md R36). -/
abbrev Memory := List Host.Cell

/-- Everything the spec gives the block. `log` is the trace of the log port (log 11), `stopReq` the `stop_req` line
(log 10), `cfg` the implementation parameters (log 1); no step changes `mode`, `desc`, `gdt`, `stopReq` or `cfg`. -/
structure State where
  gpr     : Gprs
  seg     : Segs
  rip     : Word
  flags   : Word
  mode    : Mode
  desc    : DescCache
  gdt     : List GdtEntry
  engine  : Engine
  mem     : Memory
  log     : List LogEvent
  stopReq : Bool
  cfg     : Config
deriving DecidableEq, Repr

/-- Why the machine stops outside its own states. The spec's four error kinds are not here: raising one is a next state
whose engine is Faulted (60_exceptions.md R246, log 8). -/
inductive Fault where
  /-- Raised by a read or write of an unmapped register id, only where the parameter `UNMAPPED_REG_POLICY` is `fault`
  (40_block_primitives.md R137, log 14). Safe: the machine stops where another policy goes on. -/
  | unmappedRegister (id : BitVec 8)
deriving DecidableEq, Repr

/-- Why a step has no meaning. -/
inductive Refusal where
  /-- An instruction without a meaning; no arm of `exec` answers it. Safe. -/
  | notModelled (mnemonic : String)
  /-- Answered by `step` for a recognized mnemonic in an operand shape the spec refuses (30_encoding.md R109,
  93_implementation_defined.md U6, log 13). Safe: the spec gives such a word no step. -/
  | shapeNotAdmitted (mnemonic : String)
deriving DecidableEq, Repr

/-- What one step of the block answers. -/
abbrev Outcome := Host.Outcome State Fault Refusal

/-- A descriptor of zeros: the model's `DESC_INIT` entry at reset (log 5). -/
def Descriptor.zero : Descriptor := ⟨0, 0, 0, 0⟩

/-- The state at the first fetch (10_state.md R40), with the OPEN parameters at the values the log names: the spec's
reference values (log 3, log 7), mode Real (log 4), an empty descriptor table (log 5), a boot sector of zeros (log 6) and
an empty decoder table (log 2). -/
def State.reset : State where
  gpr     := ⟨0, 0, 0, 0, 0x7C00, 0, 0, 0⟩
  seg     := ⟨0, 0, 0, 0, 0, 0⟩
  rip     := 0x7C00
  flags   := 0
  mode    := .real
  desc    := ⟨.zero, .zero, .zero, .zero, .zero, .zero, .zero, .zero⟩
  gdt     := []
  engine  := .fetch
  mem     := []
  log     := []
  stopReq := false
  cfg     := Config.reference

end Sys2Proof.Machine
end

