-- ==== Sys2Proof/Machine/Ops.lean ====
section
/-!
DEFINITION. The named operations over the state: field updates, raising an error, the register file
(40_block_primitives.md R130 to R137), memory (20_memory.md R60 to R65) and the address translator (R70 to R73).
-/

namespace Sys2Proof.Machine

/-! ### Field updates -/

def State.setGpr (s : State) (g : Gprs) : State := { s with gpr := g }
def State.setSeg (s : State) (g : Segs) : State := { s with seg := g }
def State.setRip (s : State) (w : Word) : State := { s with rip := w }
def State.setFlags (s : State) (w : Word) : State := { s with flags := w }
def State.setDesc (s : State) (d : DescCache) : State := { s with desc := d }
def State.setEngine (s : State) (e : Engine) : State := { s with engine := e }
def State.setMem (s : State) (m : Memory) : State := { s with mem := m }

/-- An event on the log port, appended to the trace (41_engine_cycle.md R176, log 11). -/
def State.emit (s : State) (e : LogEvent) : State := { s with log := s.log ++ [e] }

/-! ### Errors -/

/-- How an operation ends without a result: it raises one of the error kinds (60_exceptions.md R240), or the machine
stops outside its states. -/
inductive Stop where
  | raise (k : ErrorKind)
  | fail (f : Fault)
deriving DecidableEq, Repr

/-- A result, or how the operation ended without one. -/
abbrev Res (α : Type) := Except Stop α

/-- The numeric code of an error kind (60_exceptions.md R240). -/
def ErrorKind.code : ErrorKind → Nat
  | .decodeFailure _            => 1
  | .storageFailure             => 2
  | .outOfBounds _ _            => 3
  | .unsupportedTranslation _ _ => 4

/-- `raise K(info)`: the step ends with the engine Faulted and nothing else changed (60_exceptions.md R246, log 8). -/
def raise (k : ErrorKind) (s : State) : Outcome := .next (s.setEngine (.faulted k))

/-- The end of an Execute phase that began in `s`: its result, or the raised error in the unchanged `s`
(41_engine_cycle.md R172). -/
def finish (s : State) : Res State → Outcome
  | .ok t             => .next t
  | .error (.raise k) => raise k s
  | .error (.fail f)  => .fault f

/-! ### Modes -/

/-- `W(MODE)` in bytes: 2, 4 or 8 (00_scope.md R6). -/
def modeBytes : Mode → Nat
  | .real => 2
  | .prot => 4
  | .long => 8

/-! ### Register file -/

/-- The content of a cell. -/
def Gprs.get (g : Gprs) : Gpr → Word
  | .rax => g.rax
  | .rcx => g.rcx
  | .rdx => g.rdx
  | .rbx => g.rbx
  | .rsp => g.rsp
  | .rbp => g.rbp
  | .rsi => g.rsi
  | .rdi => g.rdi

/-- The cells with one replaced. -/
def Gprs.set (g : Gprs) (r : Gpr) (v : Word) : Gprs :=
  match r with
  | .rax => { g with rax := v }
  | .rcx => { g with rcx := v }
  | .rdx => { g with rdx := v }
  | .rbx => { g with rbx := v }
  | .rsp => { g with rsp := v }
  | .rbp => { g with rbp := v }
  | .rsi => { g with rsi := v }
  | .rdi => { g with rdi := v }

/-- The content of a segment register. -/
def Segs.get (g : Segs) : SegReg → BitVec 16
  | .es => g.es
  | .cs => g.cs
  | .ss => g.ss
  | .ds => g.ds
  | .fs => g.fs
  | .gs => g.gs

/-- The segment registers with one replaced. -/
def Segs.set (g : Segs) (r : SegReg) (v : BitVec 16) : Segs :=
  match r with
  | .es => { g with es := v }
  | .cs => { g with cs := v }
  | .ss => { g with ss := v }
  | .ds => { g with ds := v }
  | .fs => { g with fs := v }
  | .gs => { g with gs := v }

/-- The four cells that have a high-byte view (10_state.md R21). -/
inductive HighGpr where
  | rax
  | rcx
  | rdx
  | rbx
deriving DecidableEq, Repr

/-- The cell of a high-byte view. -/
def HighGpr.cell : HighGpr → Gpr
  | .rax => .rax
  | .rcx => .rcx
  | .rdx => .rdx
  | .rbx => .rbx

/-- The 36 views (10_state.md R21). -/
inductive View where
  | low8 (r : Gpr)
  | high8 (r : HighGpr)
  | bits16 (r : Gpr)
  | bits32 (r : Gpr)
  | bits64 (r : Gpr)
deriving DecidableEq, Repr

/-- The cell a view belongs to. -/
def View.cell : View → Gpr
  | .low8 r   => r
  | .high8 r  => r.cell
  | .bits16 r => r
  | .bits32 r => r
  | .bits64 r => r

/-- The lowest bit of a view (10_state.md R21). -/
def View.lo : View → Nat
  | .low8 _   => 0
  | .high8 _  => 8
  | .bits16 _ => 0
  | .bits32 _ => 0
  | .bits64 _ => 0

/-- The width of a view in bits (10_state.md R21). -/
def View.width : View → Nat
  | .low8 _   => 8
  | .high8 _  => 8
  | .bits16 _ => 16
  | .bits32 _ => 32
  | .bits64 _ => 64

/-- What a register id names (30_encoding.md R104, 10_state.md R25). -/
inductive RegName where
  | view (v : View)
  | seg (q : SegReg)
  | unmapped
deriving DecidableEq, Repr

/-- The cell of an index 0 to 7 (30_encoding.md R104). -/
def Gpr.ofIndex : Nat → Option Gpr
  | 0 => some .rax
  | 1 => some .rcx
  | 2 => some .rdx
  | 3 => some .rbx
  | 4 => some .rsp
  | 5 => some .rbp
  | 6 => some .rsi
  | 7 => some .rdi
  | _ => none

/-- The cell of a high-byte index 0 to 3 (30_encoding.md R104). -/
def HighGpr.ofIndex : Nat → Option HighGpr
  | 0 => some .rax
  | 1 => some .rcx
  | 2 => some .rdx
  | 3 => some .rbx
  | _ => none

/-- The segment register of an index 0 to 5 (30_encoding.md R104). -/
def segOfIndex : Nat → Option SegReg
  | 0 => some .es
  | 1 => some .cs
  | 2 => some .ss
  | 3 => some .ds
  | 4 => some .fs
  | 5 => some .gs
  | _ => none

/-- A name found, or unmapped. -/
def RegName.ofOption {α : Type} (f : α → RegName) : Option α → RegName
  | some a => f a
  | none   => .unmapped

/-- The table of R104: class `id[7:4]`, index `id[3:0]`. -/
def RegName.ofId (id : BitVec 8) : RegName :=
  let k := id.toNat % 16
  match id.toNat / 16 with
  | 0 => .ofOption (fun r => .view (.low8 r)) (Gpr.ofIndex k)
  | 1 => .ofOption (fun r => .view (.high8 r)) (HighGpr.ofIndex k)
  | 2 => .ofOption (fun r => .view (.bits16 r)) (Gpr.ofIndex k)
  | 3 => .ofOption (fun r => .view (.bits32 r)) (Gpr.ofIndex k)
  | 4 => .ofOption (fun r => .view (.bits64 r)) (Gpr.ofIndex k)
  | 5 => .ofOption RegName.seg (segOfIndex k)
  | _ => .unmapped

/-- The content of a view, zero-extended (40_block_primitives.md R130). -/
def Gprs.read (g : Gprs) (v : View) : Word := ((g.get v.cell).extractLsb' v.lo v.width).setWidth 64

/-- The new content of the cell of view `v` when `x` is written over `old` (40_block_primitives.md R131 to R135). -/
def View.merge (v : View) (old x : Word) : Word :=
  match v with
  | .low8 _   => old.extractLsb' 8 56 ++ x.extractLsb' 0 8
  | .high8 _  => old.extractLsb' 16 48 ++ x.extractLsb' 0 8 ++ old.extractLsb' 0 8
  | .bits16 _ => old.extractLsb' 16 48 ++ x.extractLsb' 0 16
  | .bits32 _ => (x.extractLsb' 0 32).setWidth 64
  | .bits64 _ => x

/-- The cells after a write of view `v` (40_block_primitives.md R131 to R135). -/
def Gprs.write (g : Gprs) (v : View) (x : Word) : Gprs := g.set v.cell (v.merge (g.get v.cell) x)

/-- An access to an unmapped id: `d` under the policy `zero`, a stop under `fault` (40_block_primitives.md R137, log 14). -/
def unmapped {α : Type} (s : State) (id : BitVec 8) (d : α) : Res α :=
  match s.cfg.unmappedReg with
  | .zero  => .ok d
  | .fault => .error (.fail (.unmappedRegister id))

/-- `RegRead(id)` (40_block_primitives.md R130, R137). -/
def regRead (s : State) (id : BitVec 8) : Res Word :=
  match RegName.ofId id with
  | .view v   => .ok (s.gpr.read v)
  | .seg q    => .ok ((s.seg.get q).setWidth 64)
  | .unmapped => unmapped s id 0

/-- `RegWrite(id, x)` (40_block_primitives.md R131 to R137). -/
def regWrite (s : State) (id : BitVec 8) (x : Word) : Res State :=
  match RegName.ofId id with
  | .view v   => .ok (s.setGpr (s.gpr.write v x))
  | .seg q    => .ok (s.setSeg (s.seg.set q (x.extractLsb' 0 16)))
  | .unmapped => unmapped s id s

/-! ### Memory -/

/-- The byte at a physical address; what is not listed is 0 (10_state.md R36). -/
def Memory.byteAt : Memory → Nat → Byte
  | [], _          => 0
  | (k, b) :: m, a => if k = a then b else Memory.byteAt m a

/-- The memory with one byte replaced, in the same form: addresses rising, no zero listed. -/
def Memory.setByte : Memory → Nat → Byte → Memory
  | [], a, v          => if v = 0 then [] else [(a, v)]
  | (k, b) :: m, a, v =>
    if a < k then (if v = 0 then (k, b) :: m else (a, v) :: (k, b) :: m)
    else if a = k then (if v = 0 then m else (a, v) :: m)
    else (k, b) :: Memory.setByte m a v

/-- The canonical form: addresses strictly rising and no listed zero, so that equal memories are equal lists. -/
abbrev Memory.wf (m : Memory) : Prop :=
  m.Pairwise (fun c d => c.1 < d.1) ∧ ∀ c ∈ m, c.2 ≠ 0

/-- The `n` bytes from `a` up, as the number they form with the lowest address least significant (20_memory.md R61). -/
def Memory.readNat (m : Memory) (a : Nat) : Nat → Nat
  | 0     => 0
  | n + 1 => (Memory.byteAt m a).toNat + 256 * Memory.readNat m (a + 1) n

/-- The low `n` bytes of `v` stored from `a` up, the least significant first (20_memory.md R62). -/
def Memory.writeBytes (m : Memory) (a : Nat) (v : Word) : Nat → Memory
  | 0     => m
  | n + 1 => Memory.writeBytes (Memory.setByte m a (v.extractLsb' 0 8)) (a + 1) (v >>> 8) n

/-- The `n` bytes from `a` up, in ascending address order (41_engine_cycle.md R161). -/
def Memory.bytes (m : Memory) (a : Nat) : Nat → List Byte
  | 0     => []
  | n + 1 => Memory.byteAt m a :: Memory.bytes m (a + 1) n

/-- The bounds check, computed without wrap (20_memory.md R61, R62). -/
abbrev inBounds (s : State) (a : Word) (n : Nat) : Prop := a.toNat + n ≤ s.cfg.memSize

/-- `MemRead(addr, n)`, zero-extended (20_memory.md R61, R63). -/
def memRead (s : State) (a : Word) (n : Nat) : Res Word :=
  if inBounds s a n then .ok (BitVec.ofNat 64 (Memory.readNat s.mem a.toNat n))
  else .error (.raise (.outOfBounds a n))

/-- `MemWrite(addr, n, v)` (20_memory.md R62, R63). -/
def memWrite (s : State) (a : Word) (n : Nat) (v : Word) : Res State :=
  if inBounds s a n then .ok (s.setMem (Memory.writeBytes s.mem a.toNat v n))
  else .error (.raise (.outOfBounds a n))

/-! ### Address translator -/

/-- `Translate(mode, seg, off)`, modulo 2^64 (20_memory.md R70 to R73). -/
def translateAddr (m : Mode) (seg : BitVec 16) (off : Word) : Res Word :=
  match m with
  | .real => .ok (seg.setWidth 64 * 16 + off)
  | .prot => .ok (seg.setWidth 64 + off)
  | .long => .error (.raise (.unsupportedTranslation seg off))

end Sys2Proof.Machine
end

