-- ==== Sys2Proof/Machine/Flags.lean ====
section
/-!
DEFINITION. The flags register (10_state.md R30, R31; 40_block_primitives.md R139 to R142) as operations on the 64-bit
flags word.
-/

namespace Sys2Proof.Machine

/-- The nine single-bit flags, under the source's names (10_state.md R31). -/
inductive FlagBit where
  | carry
  | parity
  | adjust
  | zero
  | sign
  | trap
  | interrupt
  | direction
  | overflow
deriving DecidableEq, Repr

/-- The bit of a flag (10_state.md R31, 40_block_primitives.md R139). -/
def FlagBit.pos : FlagBit → Nat
  | .carry     => 0
  | .parity    => 2
  | .adjust    => 4
  | .zero      => 6
  | .sign      => 7
  | .trap      => 8
  | .interrupt => 9
  | .direction => 10
  | .overflow  => 11

/-- `FlagGet(f)` (40_block_primitives.md R139). -/
def flagGet (f : FlagBit) (w : Word) : Bool := w.getLsbD f.pos

/-- `FlagSet(f, b)` (40_block_primitives.md R140). -/
def flagSet (f : FlagBit) (b : Bool) (w : Word) : Word :=
  if b then w ||| (1#64 <<< f.pos) else w &&& ~~~(1#64 <<< f.pos)

/-- `IoplGet()` (40_block_primitives.md R141). -/
def ioplGet (w : Word) : BitVec 2 := w.extractLsb' 12 2

/-- `IoplSet(p)` (40_block_primitives.md R141). -/
def ioplSet (p : BitVec 2) (w : Word) : Word := w.extractLsb' 14 50 ++ p ++ w.extractLsb' 0 12

/-- `CompareFlags(a, b)` on the flags word `w` (40_block_primitives.md R142). -/
def compareFlags (p : CmpGtPolicy) (w a b : Word) : Word :=
  if a = b then flagSet .carry false (flagSet .zero true w)
  else if a.toNat < b.toNat then flagSet .zero false (flagSet .carry true w)
  else
    match p with
    | .clearBoth => flagSet .carry false (flagSet .zero false w)
    | .unchanged => w

end Sys2Proof.Machine
end

