-- ==== Sys2Proof/Machine/Operands.lean ====
section
/-!
DEFINITION. Operands (20_memory.md R74; 41_engine_cycle.md R165 to R170): the effective address, the value of a source
and the write-back to a destination.
-/

namespace Sys2Proof.Machine

/-- The segment of a Memory operand: the override, or DS (20_memory.md R74, 30_encoding.md R105). -/
def segmentOf (h : Head) : SegReg := h.ovr.getD .ds

/-- `EA(op)` of a Memory operand with displacement `disp` (20_memory.md R74). -/
def operandAddr (s : State) (h : Head) (disp : Word) : Res Word :=
  if s.mode = .long then .ok disp
  else translateAddr s.mode (s.seg.get (segmentOf h)) ((disp.extractLsb' 0 32).setWidth 64)

/-- The address a Memory operand is read at: `EA(op)`, but in Long mode under `LONG_MEM_READ = fault` the translator is
asked and refuses (60_exceptions.md R244, log 15). -/
def readAddr (s : State) (h : Head) (disp : Word) : Res Word :=
  if s.mode = .long ∧ s.cfg.longMemRead = .fault then translateAddr .long (s.seg.get (segmentOf h)) disp
  else operandAddr s h disp

/-- `Value(op)` (41_engine_cycle.md R165, R166, R167). -/
def value (s : State) (h : Head) : Source → Res Word
  | .reg id     => regRead s id
  | .mem _ disp => do
    let a ← readAddr s h disp
    memRead s a (modeBytes s.mode)
  | .imm i      => .ok i.val

/-- The bytes a Memory write-back stores: the mode's width, or the decoded width under
`MEM_WRITE_WIDTH = operand_decoded` (41_engine_cycle.md R170). -/
def storeBytes (s : State) (w : OpWidth) : Nat :=
  match s.cfg.memWriteWidth with
  | .modeDefault    => modeBytes s.mode
  | .operandDecoded => w.bytes

/-- `WriteBack(op, v)`; a Memory destination in Long mode is not written and its address not formed
(41_engine_cycle.md R169, R170). -/
def writeBack (s : State) (h : Head) (d : Dest) (v : Word) : Res State :=
  match d with
  | .reg id     => regWrite s id v
  | .mem w disp =>
    if s.mode = .long then .ok s
    else do
      let a ← operandAddr s h disp
      memWrite s a (storeBytes s w) v

/-- A destination read as a source, for the instructions that read operand0. -/
def destAsSource : Dest → Source
  | .reg id     => .reg id
  | .mem w disp => .mem w disp

end Sys2Proof.Machine
end

