-- ==== Sys2Proof/Machine/Control.lean ====
section
/-!
DEFINITION. Jmp, Je, Jne, Hlt (43_control.md). rip holds the next sequential address when a meaning runs
(41_engine_cycle.md R163).
-/

namespace Sys2Proof.Machine

/-- Jmp (R210): rip becomes the operand's value, absolute. -/
def execJmp (h : Head) (t : Source) (s : State) : Outcome :=
  finish s do
    let v ← value s h t
    .ok (s.setRip v)

/-- Je (R211): taken when ZF is set. -/
def execJe (_h : Head) (t : Imm) (s : State) : Outcome :=
  .next (if flagGet .zero s.flags then s.setRip t.val else s)

/-- Jne (R212): taken when ZF is clear. -/
def execJne (_h : Head) (t : Imm) (s : State) : Outcome :=
  .next (if flagGet .zero s.flags then s else s.setRip t.val)

/-- Hlt (R213). -/
def execHlt (_h : Head) (s : State) : Outcome := .next (s.setEngine .halted)

end Sys2Proof.Machine
end

