-- ==== Sys2Proof/Machine/DataAlu.lean ====
section
/-!
DEFINITION. Mov, Add, Sub, And, Or, Cmp (42_data_alu.md). rip has been advanced before a meaning runs
(41_engine_cycle.md R163).
-/

namespace Sys2Proof.Machine

/-- The four operations of R190: both operands read, then the result written back; no flag. -/
def alu (op : Word → Word → Word) (h : Head) (d : Dest) (r : Source) (s : State) : Outcome :=
  finish s do
    let a ← value s h (destAsSource d)
    let b ← value s h r
    writeBack s h d (op a b)

/-- Mov (R191): operand0 is not read. -/
def execMov (h : Head) (d : Dest) (r : Source) (s : State) : Outcome :=
  finish s do
    let v ← value s h r
    writeBack s h d v

/-- Add (R192). -/
def execAdd (h : Head) (d : Dest) (r : Source) (s : State) : Outcome := alu (fun a b => a + b) h d r s

/-- Sub (R193). -/
def execSub (h : Head) (d : Dest) (r : Source) (s : State) : Outcome := alu (fun a b => a - b) h d r s

/-- And (R194). -/
def execAnd (h : Head) (d : Dest) (r : Source) (s : State) : Outcome := alu (fun a b => a &&& b) h d r s

/-- Or (R195). -/
def execOr (h : Head) (d : Dest) (r : Source) (s : State) : Outcome := alu (fun a b => a ||| b) h d r s

/-- Cmp (R196): ZF and CF only, nothing written back. -/
def execCmp (h : Head) (d : Dest) (r : Source) (s : State) : Outcome :=
  finish s do
    let a ← value s h (destAsSource d)
    let b ← value s h r
    .ok (s.setFlags (compareFlags s.cfg.cmpGt s.flags a b))

end Sys2Proof.Machine
end

