-- ==== Sys2Proof/Machine/Interrupt.lean ====
section
/-!
DEFINITION. The interrupt dispatcher and its one service, teletype output (40_block_primitives.md R143, R144, R145;
60_exceptions.md R249 to R252).
-/

namespace Sys2Proof.Machine

/-- The number of cells of the video text region, 80 by 25 (00_scope.md R6). -/
def videoCells : Nat := 2000

/-- The physical address of video cell `k` (40_block_primitives.md R145). -/
def videoCellAddr (s : State) (k : Nat) : Word :=
  s.cfg.videoBase + BitVec.ofNat 64 (k * s.cfg.videoCell.toNat)

/-- The teletype scan over the next `n` cells from cell `k` (40_block_primitives.md R145). -/
def teletypeFrom (s : State) : Nat → Nat → Res State
  | 0, _     => .ok s
  | n + 1, k => do
    let c ← memRead s (videoCellAddr s k) s.cfg.videoCell.toNat
    if c = 0 then memWrite s (videoCellAddr s k) 1 (s.gpr.read (.low8 .rax))
    else teletypeFrom s n (k + 1)

/-- `Teletype()` (40_block_primitives.md R145). -/
def teletype (s : State) : Res State := teletypeFrom s videoCells 0

/-- `Dispatch(vec)` (40_block_primitives.md R143). -/
def dispatch (s : State) (vec : Byte) : Res State :=
  if flagGet .interrupt s.flags = false then .ok s
  else if vec = 0x10 ∧ s.gpr.read (.high8 .rax) = 0x0E then teletype s
  else .ok s

end Sys2Proof.Machine
end

