-- ==== Sys2Proof/Machine/System.lean ====
section
/-!
DEFINITION. Cli, Int, Lgdt and the unrecognized mnemonics (44_system.md).
-/

namespace Sys2Proof.Machine

/-- Cli (R220). -/
def execCli (_h : Head) (s : State) : Outcome := .next (s.setFlags (flagSet .interrupt false s.flags))

/-- Int n (R221). -/
def execInt (_h : Head) (vec : Byte) (s : State) : Outcome := finish s (dispatch s vec)

/-- Lgdt (R222): the limit and the base are read and logged; nothing is loaded. -/
def execLgdt (h : Head) (_w : OpWidth) (disp : Word) (s : State) : Outcome :=
  finish s do
    let a ← readAddr s h disp
    let limit ← memRead s a 2
    let base ← memRead s (a + 2) 4
    .ok (s.emit (.lgdt (limit.extractLsb' 0 16) (base.extractLsb' 0 32)))

/-- A logged no-op (R223). -/
def unrecognized (mn : BitVec 8) (s : State) : Outcome := .next (s.emit (.unrecognized mn))

/-- The unrecognized code 0x00 (R223). -/
def execUnrec00 (_h : Head) (s : State) : Outcome := unrecognized 0x00 s

/-- The unrecognized codes 0x0E and 0x0F (R223). -/
def execUnrec0E (_h : Head) (lo : BitVec 1) (s : State) : Outcome := unrecognized (0b0000111#7 ++ lo) s

/-- The unrecognized codes 0x10 to 0x1F (R223). -/
def execUnrec10 (_h : Head) (lo : BitVec 4) (s : State) : Outcome := unrecognized (0b0001#4 ++ lo) s

/-- The unrecognized codes 0x20 to 0x3F (R223). -/
def execUnrec20 (_h : Head) (lo : BitVec 5) (s : State) : Outcome := unrecognized (0b001#3 ++ lo) s

/-- The unrecognized codes 0x40 to 0x7F (R223). -/
def execUnrec40 (_h : Head) (lo : BitVec 6) (s : State) : Outcome := unrecognized (0b01#2 ++ lo) s

/-- The unrecognized codes 0x80 to 0xFF (R223). -/
def execUnrec80 (_h : Head) (lo : BitVec 7) (s : State) : Outcome := unrecognized (0b1#1 ++ lo) s

end Sys2Proof.Machine
end

