-- ==== Sys2Proof/Machine/Dispatch.lean ====
section
/-!
DEFINITION. The Execute phase: one arm per instruction (41_engine_cycle.md R164).
-/

namespace Sys2Proof.Machine

def exec (i : Instr) (s : State) : Host.Outcome State Fault Refusal :=
  match i with
  | .mov h d r => Sys2Proof.Machine.execMov h d r s
  | .add h d r => Sys2Proof.Machine.execAdd h d r s
  | .sub h d r => Sys2Proof.Machine.execSub h d r s
  | .and h d r => Sys2Proof.Machine.execAnd h d r s
  | .or h d r => Sys2Proof.Machine.execOr h d r s
  | .cmp h d r => Sys2Proof.Machine.execCmp h d r s
  | .jmp h t => Sys2Proof.Machine.execJmp h t s
  | .je h t => Sys2Proof.Machine.execJe h t s
  | .jne h t => Sys2Proof.Machine.execJne h t s
  | .cli h => Sys2Proof.Machine.execCli h s
  | .int h vec => Sys2Proof.Machine.execInt h vec s
  | .lgdt h w disp => Sys2Proof.Machine.execLgdt h w disp s
  | .hlt h => Sys2Proof.Machine.execHlt h s
  | .unrec00 h => Sys2Proof.Machine.execUnrec00 h s
  | .unrec0E h lo => Sys2Proof.Machine.execUnrec0E h lo s
  | .unrec10 h lo => Sys2Proof.Machine.execUnrec10 h lo s
  | .unrec20 h lo => Sys2Proof.Machine.execUnrec20 h lo s
  | .unrec40 h lo => Sys2Proof.Machine.execUnrec40 h lo s
  | .unrec80 h lo => Sys2Proof.Machine.execUnrec80 h lo s

end Sys2Proof.Machine
end

