-- ==== Sys2Proof/Machine/Fetch.lean ====
section
/-!
DEFINITION. The Fetch and Decode phases and the advance (41_engine_cycle.md R161, R162, R163), with the external decoder
as the finite table of the parameters (30_encoding.md R112, log 2).
-/

namespace Sys2Proof.Machine

/-- `MAX_INSN_LEN` (00_scope.md R6). -/
def maxInsnLen : Nat := 15

/-- The fetch address `rip mod 2^W(MODE)`, a physical address (41_engine_cycle.md R161). -/
def fetchAddr (s : State) : Word := BitVec.ofNat 64 (s.rip.toNat % 2 ^ (8 * modeBytes s.mode))

/-- How many bytes the fetch reads: 15, or under `FETCH_WINDOW = clip` those of them that lie in memory
(41_engine_cycle.md R161). -/
def windowLength (s : State) : Nat :=
  match s.cfg.fetchWindow with
  | .strict15 => maxInsnLen
  | .clip     => min maxInsnLen (s.cfg.memSize - (fetchAddr s).toNat)

/-- The bytes of the fetch window, in ascending address order (41_engine_cycle.md R161). -/
def fetchBytes (s : State) : List Byte := Memory.bytes s.mem (fetchAddr s).toNat (windowLength s)

/-- The fetch stays inside memory (41_engine_cycle.md R161). -/
def fetchInBounds (s : State) : Bool :=
  match s.cfg.fetchWindow with
  | .strict15 => (fetchAddr s).toNat + maxInsnLen ≤ s.cfg.memSize
  | .clip     => (fetchAddr s).toNat < s.cfg.memSize

/-- The external decoder: the answer of the first line of the table for this window, mode and address; a triple the
table does not list is the decode-failure signal (30_encoding.md R112, 93_implementation_defined.md U22). -/
def consult : List DecodeEntry → List Byte → Mode → Word → Option Diw
  | [], _, _, _           => none
  | e :: rest, ws, md, a =>
    if e.addr = a ∧ e.mode = md ∧ e.window = ws then some e.answer else consult rest ws md a

/-- What the Fetch and Decode phases answer. -/
inductive Fetched where
  | instr (i : Instr)
  | error (k : ErrorKind)
  | notAdmitted (mnemonic : String)
deriving DecidableEq, Repr

/-- What a word on the `decoded` port comes to at fetch address `a`: a malformed word is a decode failure
(41_engine_cycle.md R162, 30_encoding.md R110). -/
def acceptWord (a : Word) (d : Diw) : Fetched :=
  match decode d with
  | .ok i          => .instr i
  | .malformed     => .error (.decodeFailure a)
  | .notAdmitted m => .notAdmitted m

/-- The Fetch and Decode phases (41_engine_cycle.md R161, R162); under `clip` the bounds fault reports 15 bytes as under
`strict15` (log 16). -/
def fetchDecode (s : State) : Fetched :=
  if fetchInBounds s then
    match consult s.cfg.decoder (fetchBytes s) s.mode (fetchAddr s) with
    | some d => acceptWord (fetchAddr s) d
    | none   => .error (.decodeFailure (fetchAddr s))
  else .error (.outOfBounds (fetchAddr s) maxInsnLen)

/-- The advance of rip by `LEN`, modulo 2^64 (41_engine_cycle.md R163). -/
def advance (len : BitVec 4) (s : State) : State := s.setRip (s.rip + len.setWidth 64)

/-- The state whose decoder answers `d` for the window the next fetch reads (log 2). -/
def placeWord (s : State) (d : Diw) : State :=
  { s with cfg := { s.cfg with decoder := ⟨fetchAddr s, s.mode, fetchBytes s, d⟩ :: s.cfg.decoder } }

end Sys2Proof.Machine
end

