-- ==== Sys2Proof/Machine/Step.lean ====
section
/-!
DEFINITION. One iteration of the engine (41_engine_cycle.md R160).
-/

namespace Sys2Proof.Machine

/-- `Step()` (41_engine_cycle.md R160). A stopped, halted or faulted block takes no step: its state stays (R173, R174,
60_exceptions.md R246, log 9). A shape that is not admitted is refused (30_encoding.md R109, log 13). -/
def step (s : State) : Host.Outcome State Fault Refusal :=
  if s.stopReq then .next s
  else
    match s.engine with
    | .halted    => .next s
    | .faulted _ => .next s
    | .fetch     =>
      match fetchDecode s with
      | .instr i       => exec i (advance i.head.len s)
      | .error k       => raise k s
      | .notAdmitted m => .refused (.shapeNotAdmitted m)

/-- The state in which the next fetch receives the word numbered `w` (`nbits` bits from header bit 0 up, the rest zero)
on the `decoded` port: one more line in the decoder table (log 2). -/
def State.withFetchWord (s : State) (nbits w : Nat) : State := placeWord s (BitVec.ofNat 160 (w % 2 ^ nbits))

end Sys2Proof.Machine
end

