-- ==== Sys2Proof/Machine/Boot.lean ====
section
/-!
DEFINITION. Construction and boot priming (70_reset_and_hazards.md R280, R281, R282) for every value of the OPEN
parameters and every disk.
-/

namespace Sys2Proof.Machine

/-- The parameters of 00_scope.md R6 that only construction and boot use. `GDT_SLOTS` is the length of `gdtInit`. -/
structure BootParams where
  resetCs  : BitVec 16
  resetIp  : Word
  resetSp  : BitVec 16
  initGpr  : Gprs
  initSeg  : Segs
  initFlags : Word
  descInit : DescCache
  gdtInit  : List GdtEntry
deriving DecidableEq, Repr

/-- The constraint of 00_scope.md R6 on `RESET_IP`. -/
abbrev BootParams.Fits (p : BootParams) (c : Config) : Prop := p.resetIp.toNat + 512 ≤ c.memSize

/-- A sector of the disk: 512 bytes (00_scope.md R6). -/
abbrev Sector := Vector Byte 512

/-- The spec's reference values of the OPEN boot parameters (00_scope.md R6), with no descriptor (log 3, log 5, log 7). -/
def BootParams.reference : BootParams where
  resetCs   := 0
  resetIp   := 0x7C00
  resetSp   := 0x7C00
  initGpr   := ⟨0, 0, 0, 0, 0, 0, 0, 0⟩
  initSeg   := ⟨0, 0, 0, 0, 0, 0⟩
  initFlags := 0
  descInit  := ⟨.zero, .zero, .zero, .zero, .zero, .zero, .zero, .zero⟩
  gdtInit   := []

/-- Construction (R280). -/
def construct (p : BootParams) (c : Config) (m : Mode) : State where
  gpr     := p.initGpr
  seg     := p.initSeg
  rip     := 0
  flags   := p.initFlags
  mode    := m
  desc    := p.descInit
  gdt     := p.gdtInit
  engine  := .fetch
  mem     := []
  log     := []
  stopReq := false
  cfg     := c

/-- The register writes of boot priming (R281). -/
def prime (p : BootParams) (s : State) : State :=
  let g := ((s.seg.set .cs p.resetCs).set .ds 0).set .ss 0
  ((s.setSeg g).setGpr (s.gpr.write (.bits16 .rsp) (p.resetSp.setWidth 64))).setRip p.resetIp

/-- Bytes copied to memory from address `a` up (R281). -/
def Memory.load (m : Memory) (a : Nat) : List Byte → Memory
  | []      => m
  | b :: bs => Memory.load (Memory.setByte m a b) (a + 1) bs

/-- `Boot(disk)`: `disk` is what `read_sector(0)` answers, none for its failure (R281, R282; log 19). -/
def boot (p : BootParams) (c : Config) (m : Mode) (disk : Option Sector) : State :=
  let s := prime p (construct p c m)
  match disk with
  | some sec => s.setMem (Memory.load s.mem p.resetIp.toNat sec.toList)
  | none     => s.setEngine (.faulted .storageFailure)

end Sys2Proof.Machine
end

