-- ==== Sys2Proof/Machine/Ports.lean ====
section
/-!
DEFINITION. Ports of the block that no instruction drives (00_scope.md R9): the load primitive of the descriptor cache
(40_block_primitives.md R146), the video view and the status.
-/

namespace Sys2Proof.Machine

/-- The content of a descriptor-cache entry. -/
def DescCache.get (c : DescCache) : DescName → Descriptor
  | .cs   => c.cs
  | .ds   => c.ds
  | .ss   => c.ss
  | .es   => c.es
  | .fs   => c.fs
  | .gs   => c.gs
  | .tr   => c.tr
  | .ldtr => c.ldtr

/-- The descriptor cache with one entry replaced. -/
def DescCache.set (c : DescCache) (n : DescName) (d : Descriptor) : DescCache :=
  match n with
  | .cs   => { c with cs := d }
  | .ds   => { c with ds := d }
  | .ss   => { c with ss := d }
  | .es   => { c with es := d }
  | .fs   => { c with fs := d }
  | .gs   => { c with gs := d }
  | .tr   => { c with tr := d }
  | .ldtr => { c with ldtr := d }

/-- `LoadSegment(d, sel)` (40_block_primitives.md R146). -/
def loadSegment (s : State) (n : DescName) (sel : BitVec 16) : State :=
  match s.gdt[(sel.extractLsb' 3 13).toNat]? with
  | some e => s.setDesc (s.desc.set n ⟨sel, e.base, e.limit, e.access⟩)
  | none   => s

/-- `video_view`: the bytes of the video region (00_scope.md R9, 41_engine_cycle.md R175). -/
def videoView (s : State) : List Byte :=
  Memory.bytes s.mem s.cfg.videoBase.toNat (videoCells * s.cfg.videoCell.toNat)

/-- `status`: the engine state (00_scope.md R9). -/
def status (s : State) : Engine := s.engine

end Sys2Proof.Machine
end

