-- ==== Sys2Proof/Safety.lean ====
section
/-!
DEFINITION. What counts as a safe run, in the terms the statements use: when the engine takes a step, when a
destination can be written and what the state is once it has been, and the invariant of memory.
-/

namespace Sys2Proof.Machine

/-- The engine takes a step: no stop request, and the engine state is Fetch (41_engine_cycle.md R160, R173, R174). -/
abbrev Running (s : State) : Prop := s.stopReq = false ∧ s.engine = .fetch

/-- The one good end of a run (70_reset_and_hazards.md R287). -/
abbrev GoodEnd (s : State) : Prop := s.engine = .halted

/-- Memory is canonical and lists no byte outside the arena of `MEM_SIZE` bytes (10_state.md R36, 20_memory.md R60). -/
abbrev MemoryInv (s : State) : Prop := Memory.wf s.mem ∧ ∀ c ∈ s.mem, c.1 < s.cfg.memSize

/-- A destination can be written: a register id that is mapped or ignored; a Memory operand whose bytes lie in memory, or
any Memory operand in Long mode, where nothing is written (41_engine_cycle.md R169, R170). -/
def CanWrite (s : State) (h : Head) : Dest → Prop
  | .reg id     => RegName.ofId id ≠ .unmapped ∨ s.cfg.unmappedReg = .zero
  | .mem w disp => s.mode = .long ∨ ∃ a, operandAddr s h disp = .ok a ∧ inBounds s a (storeBytes s w)

/-- The state in which `v` stands at a register id and nothing else has changed (40_block_primitives.md R131 to R137). -/
def registerHolding (s : State) (id : BitVec 8) (v : Word) : State :=
  match RegName.ofId id with
  | .view w   => { s with gpr := s.gpr.write w v }
  | .seg q    => { s with seg := s.seg.set q (v.setWidth 16) }
  | .unmapped => s

/-- The state in which the result `v` stands at a destination and nothing else has changed
(41_engine_cycle.md R169, R170). -/
def resultAt (s : State) (h : Head) (d : Dest) (v : Word) : State :=
  match d with
  | .reg id     => registerHolding s id v
  | .mem w disp =>
    match s.mode, operandAddr s h disp with
    | .long, _    => s
    | _, .ok a    => { s with mem := Memory.writeBytes s.mem a.toNat v (storeBytes s w) }
    | _, .error _ => s

/-- Where an instruction that writes back a result writes it; none for the instructions that write none. -/
def resultOf : Instr → Option (Head × Dest)
  | .mov h d _ => some (h, d)
  | .add h d _ => some (h, d)
  | .sub h d _ => some (h, d)
  | .and h d _ => some (h, d)
  | .or h d _ => some (h, d)
  | .cmp _ _ _ => none
  | .jmp _ _ => none
  | .je _ _ => none
  | .jne _ _ => none
  | .cli _ => none
  | .int _ _ => none
  | .lgdt _ _ _ => none
  | .hlt _ => none
  | .unrec00 _ => none
  | .unrec0E _ _ => none
  | .unrec10 _ _ => none
  | .unrec20 _ _ => none
  | .unrec40 _ _ => none
  | .unrec80 _ _ => none

/-- The register a destination names, none for a Memory destination. -/
def registerNamed : Dest → RegName
  | .reg id  => RegName.ofId id
  | .mem _ _ => .unmapped

/-- Every byte of video cell `k` is zero (40_block_primitives.md R145). -/
def cellEmpty (s : State) (k : Nat) : Prop :=
  ∀ j < s.cfg.videoCell.toNat, Memory.byteAt s.mem (s.cfg.videoBase.toNat + k * s.cfg.videoCell.toNat + j) = 0

/-- The operand kinds and the width code that 30_encoding.md R109 admits for a mnemonic code, as the numbers of R102; any
kinds for an unrecognized code. -/
def admitted (mn k0 k1 w0 : Nat) : Bool :=
  if 1 ≤ mn ∧ mn ≤ 6 then (k0 == 1 || k0 == 2) && k1 != 0
  else if mn = 7 then k0 != 0 && k1 == 0
  else if mn = 8 ∨ mn = 9 then k0 == 3 && k1 == 0
  else if mn = 0x0A ∨ mn = 0x0D then k0 == 0 && k1 == 0
  else if mn = 0x0B then k0 == 3 && w0 == 0 && k1 == 0
  else if mn = 0x0C then k0 == 2 && k1 == 0
  else true

/-- A step's answer with its next state changed by `f`. -/
def mapNext (f : State → State) : Outcome → Outcome
  | .next t    => .next (f t)
  | .fault r   => .fault r
  | .refused r => .refused r

/-- The state with another descriptor cache and table. -/
def withDescriptors (d : DescCache) (g : List GdtEntry) (s : State) : State := { s with desc := d, gdt := g }

end Sys2Proof.Machine
end

