-- ==== Sys2Proof/Certificates/Slice0/Obligations.lean ====
section
/-!
DEFINITION. The statements about the model, each from the numbered rules of spec/ (OBLIGATIONS.json lists them).
-/

open Sys2Proof Sys2Proof.Machine

/-! ### Encoding (30_encoding.md) -/

/-- 30_encoding.md R101 to R109: decoding the canonical word of a well-formed instruction gives it back, every operand at
every value the encoding admits. The layout of the word is the spec's own decision D25. -/
def Obligations.DecodeInvertsEncode : Prop :=
  ∀ i : Instr, i.wf = true → decode (encode i) = .ok i

/-- 30_encoding.md R106, R110: what a word decodes to is well formed, carries the word's length and belongs to the
opcode-table row of its own mnemonic. -/
def Obligations.DecodedInstructionFitsItsTableRow : Prop :=
  ∀ (d : Diw) (i : Instr), decode d = .ok i →
    i.wf = true ∧ i.head.len = Diw.len d ∧ i.code = Diw.mn d ∧ i.row.holds (Diw.header d) = true

/-- 30_encoding.md R106: no header belongs to the rows of two different mnemonics. -/
def Obligations.TableRowsNeverOverlap : Prop :=
  ∀ (h : BitVec 32) (i j : Instr), i.row.holds h = true → j.row.holds h = true → i.row = j.row

/-- 30_encoding.md R110: exactly the words with a reserved header bit set, a zero length, the override code 7 or an
immediate payload with bits above its width are malformed. -/
def Obligations.MalformedWordsAreExactlyThese : Prop :=
  ∀ d : Diw, decode d = .malformed ↔
    (Diw.header d).getLsbD 15 = true ∨ 2 ^ 24 ≤ (Diw.header d).toNat ∨
    (Diw.header d).toNat / 2 ^ 8 % 16 = 0 ∨ (Diw.header d).toNat / 2 ^ 12 % 8 = 7 ∨
    ((Diw.header d).toNat / 2 ^ 16 % 4 = 3 ∧
      2 ^ (8 * 2 ^ ((Diw.header d).toNat / 2 ^ 20 % 4)) ≤ (Diw.payload0 d).toNat) ∨
    ((Diw.header d).toNat / 2 ^ 18 % 4 = 3 ∧
      2 ^ (8 * 2 ^ ((Diw.header d).toNat / 2 ^ 22 % 4)) ≤ (Diw.payload1 d).toNat)

/-- 30_encoding.md R109: a word that is not malformed decodes to an instruction exactly when its operand kinds (and the
width of Int's immediate) are admitted for its mnemonic code, and is rejected by name otherwise. -/
def Obligations.AdmittedShapesDecodeAndOthersAreRejected : Prop :=
  ∀ d : Diw, decode d ≠ .malformed →
    if admitted (Diw.mn d).toNat (Diw.kind0 d).toNat (Diw.kind1 d).toNat (Diw.width0 d).toNat = true then
      ∃ i, decode d = .ok i
    else ∃ m, decode d = .notAdmitted m

/-- Words the spec writes out (30_encoding.md R113; 42_data_alu.md R191; 95_test_vectors.md EN7, EA2, C4, Y3, Y10, Y11)
decode to what the spec says they are; a sanity statement. -/
def Obligations.WordsOfTheSpecDecodeAsItSays : Prop :=
  decode (Diw.pack 0x00130207 0x7C00 0) = .ok (.jmp ⟨2, none⟩ (.imm ⟨.w16, 0x7C00⟩)) ∧
  decode (Diw.pack 0x005D0301 0x20 0x1234) = .ok (.mov ⟨3, none⟩ (.reg 0x20) (.imm ⟨.w16, 0x1234⟩)) ∧
  decode (Diw.pack 0x00060401 0x500 0x00) = .ok (.mov ⟨4, none⟩ (.mem .w8 0x500) (.reg 0x00)) ∧
  decode (Diw.pack 0x00591401 0x20 0x20) = .ok (.mov ⟨4, some .es⟩ (.reg 0x20) (.mem .w16 0x20)) ∧
  decode (Diw.pack 0x00130208 0x7C20 0) = .ok (.je ⟨2, none⟩ ⟨.w16, 0x7C20⟩) ∧
  decode (Diw.pack 0x0003020B 0x10 0) = .ok (.int ⟨2, none⟩ 0x10) ∧
  decode (Diw.pack 0x0012050C 0x7E00 0) = .ok (.lgdt ⟨5, none⟩ .w16 0x7E00) ∧
  decode (Diw.pack 0x00000150 0 0) = .ok (.unrec40 ⟨1, none⟩ 0x10)

/-! ### Register file (40_block_primitives.md R130 to R138) -/

/-- 30_encoding.md R104, 10_state.md R21: the whole table of register ids in numbers (AL is 0x00, CL 0x01, and so on to GS,
0x55), every other id unmapped, and the cell each high-byte view belongs to. The numbering is the spec's decision D3. -/
def Obligations.RegisterIdsNameTheTableOfViews : Prop :=
  RegName.ofId 0x00 = .view (.low8 .rax) ∧ RegName.ofId 0x01 = .view (.low8 .rcx) ∧
  RegName.ofId 0x02 = .view (.low8 .rdx) ∧ RegName.ofId 0x03 = .view (.low8 .rbx) ∧
  RegName.ofId 0x04 = .view (.low8 .rsp) ∧ RegName.ofId 0x05 = .view (.low8 .rbp) ∧
  RegName.ofId 0x06 = .view (.low8 .rsi) ∧ RegName.ofId 0x07 = .view (.low8 .rdi) ∧
  RegName.ofId 0x10 = .view (.high8 .rax) ∧ RegName.ofId 0x11 = .view (.high8 .rcx) ∧
  RegName.ofId 0x12 = .view (.high8 .rdx) ∧ RegName.ofId 0x13 = .view (.high8 .rbx) ∧
  RegName.ofId 0x20 = .view (.bits16 .rax) ∧ RegName.ofId 0x21 = .view (.bits16 .rcx) ∧
  RegName.ofId 0x22 = .view (.bits16 .rdx) ∧ RegName.ofId 0x23 = .view (.bits16 .rbx) ∧
  RegName.ofId 0x24 = .view (.bits16 .rsp) ∧ RegName.ofId 0x25 = .view (.bits16 .rbp) ∧
  RegName.ofId 0x26 = .view (.bits16 .rsi) ∧ RegName.ofId 0x27 = .view (.bits16 .rdi) ∧
  RegName.ofId 0x30 = .view (.bits32 .rax) ∧ RegName.ofId 0x31 = .view (.bits32 .rcx) ∧
  RegName.ofId 0x32 = .view (.bits32 .rdx) ∧ RegName.ofId 0x33 = .view (.bits32 .rbx) ∧
  RegName.ofId 0x34 = .view (.bits32 .rsp) ∧ RegName.ofId 0x35 = .view (.bits32 .rbp) ∧
  RegName.ofId 0x36 = .view (.bits32 .rsi) ∧ RegName.ofId 0x37 = .view (.bits32 .rdi) ∧
  RegName.ofId 0x40 = .view (.bits64 .rax) ∧ RegName.ofId 0x41 = .view (.bits64 .rcx) ∧
  RegName.ofId 0x42 = .view (.bits64 .rdx) ∧ RegName.ofId 0x43 = .view (.bits64 .rbx) ∧
  RegName.ofId 0x44 = .view (.bits64 .rsp) ∧ RegName.ofId 0x45 = .view (.bits64 .rbp) ∧
  RegName.ofId 0x46 = .view (.bits64 .rsi) ∧ RegName.ofId 0x47 = .view (.bits64 .rdi) ∧
  RegName.ofId 0x50 = .seg .es ∧ RegName.ofId 0x51 = .seg .cs ∧ RegName.ofId 0x52 = .seg .ss ∧
  RegName.ofId 0x53 = .seg .ds ∧ RegName.ofId 0x54 = .seg .fs ∧ RegName.ofId 0x55 = .seg .gs ∧
  (∀ id : BitVec 8, RegName.ofId id = .unmapped ↔
    8 ≤ id.toNat % 16 ∨ 6 ≤ id.toNat / 16 ∨ (id.toNat / 16 = 1 ∧ 4 ≤ id.toNat % 16) ∨
    (id.toNat / 16 = 5 ∧ 6 ≤ id.toNat % 16)) ∧
  HighGpr.cell .rax = .rax ∧ HighGpr.cell .rcx = .rcx ∧ HighGpr.cell .rdx = .rdx ∧ HighGpr.cell .rbx = .rbx

/-- 40_block_primitives.md R131 to R135: each bit of the written cell after a write of each width, and every other cell
unchanged. -/
def Obligations.ViewWritesReplaceTheirBitsOfOneCell : Prop :=
  ∀ (g : Gprs) (x : Word),
    (∀ r, (g.write (.bits64 r) x).get r = x) ∧
    (∀ r i, ((g.write (.bits32 r) x).get r).getLsbD i = if i < 32 then x.getLsbD i else false) ∧
    (∀ r i, ((g.write (.bits16 r) x).get r).getLsbD i = if i < 16 then x.getLsbD i else (g.get r).getLsbD i) ∧
    (∀ r i, ((g.write (.low8 r) x).get r).getLsbD i = if i < 8 then x.getLsbD i else (g.get r).getLsbD i) ∧
    (∀ r i, ((g.write (.high8 r) x).get r.cell).getLsbD i =
      if 8 ≤ i ∧ i < 16 then x.getLsbD (i - 8) else (g.get r.cell).getLsbD i) ∧
    (∀ v q, q ≠ View.cell v → (g.write v x).get q = g.get q)

/-- 40_block_primitives.md R130: reading a register id gives the bits of the cell that its view covers (10_state.md R21), or
the segment register, with zeros above them, and changes nothing. -/
def Obligations.RegisterReadIsTheZeroExtendedView : Prop :=
  ∀ (s : State) (id : BitVec 8),
    (∀ r, RegName.ofId id = .view (.low8 r) →
      ∃ x, regRead s id = .ok x ∧ ∀ i, x.getLsbD i = if i < 8 then (s.gpr.get r).getLsbD i else false) ∧
    (∀ r, RegName.ofId id = .view (.high8 r) →
      ∃ x, regRead s id = .ok x ∧ ∀ i, x.getLsbD i = if i < 8 then (s.gpr.get r.cell).getLsbD (8 + i) else false) ∧
    (∀ r, RegName.ofId id = .view (.bits16 r) →
      ∃ x, regRead s id = .ok x ∧ ∀ i, x.getLsbD i = if i < 16 then (s.gpr.get r).getLsbD i else false) ∧
    (∀ r, RegName.ofId id = .view (.bits32 r) →
      ∃ x, regRead s id = .ok x ∧ ∀ i, x.getLsbD i = if i < 32 then (s.gpr.get r).getLsbD i else false) ∧
    (∀ r, RegName.ofId id = .view (.bits64 r) → regRead s id = .ok (s.gpr.get r)) ∧
    (∀ q, RegName.ofId id = .seg q →
      ∃ x, regRead s id = .ok x ∧ x.toNat = (s.seg.get q).toNat)

/-- 40_block_primitives.md R138 (a): a view written reads back the low bits of the value, as many as the view is wide. -/
def Obligations.WrittenViewReadsBack : Prop :=
  ∀ (g : Gprs) (x : Word),
    (∀ r, ((g.write (.low8 r) x).read (.low8 r)).toNat = x.toNat % 2 ^ 8) ∧
    (∀ r, ((g.write (.high8 r) x).read (.high8 r)).toNat = x.toNat % 2 ^ 8) ∧
    (∀ r, ((g.write (.bits16 r) x).read (.bits16 r)).toNat = x.toNat % 2 ^ 16) ∧
    (∀ r, ((g.write (.bits32 r) x).read (.bits32 r)).toNat = x.toNat % 2 ^ 32) ∧
    (∀ r, (g.write (.bits64 r) x).read (.bits64 r) = x)

/-- 40_block_primitives.md R138 (b): writes of a cell's low and high byte commute and do not disturb each other. -/
def Obligations.ByteHalvesAreIndependent : Prop :=
  ∀ (g : Gprs) (r : HighGpr) (x y : Word),
    (g.write (.low8 r.cell) x).write (.high8 r) y = (g.write (.high8 r) y).write (.low8 r.cell) x ∧
    (g.write (.low8 r.cell) x).read (.high8 r) = g.read (.high8 r) ∧
    (g.write (.high8 r) y).read (.low8 r.cell) = g.read (.low8 r.cell)

/-- 40_block_primitives.md R136: a write of a segment register stores the low 16 bits (the truncation is the spec's
decision D5) and changes nothing else. -/
def Obligations.SegmentWriteChangesOnlyIt : Prop :=
  ∀ (s : State) (id : BitVec 8) (q : SegReg) (x : Word), RegName.ofId id = .seg q →
    ∃ t, regWrite s id x = .ok t ∧ (t.seg.get q).toNat = x.toNat % 2 ^ 16 ∧
      (∀ p, p ≠ q → t.seg.get p = s.seg.get p) ∧ t = { s with seg := t.seg }

/-- 40_block_primitives.md R137: under `UNMAPPED_REG_POLICY = zero` an unmapped id reads 0 and a write to it changes
nothing; under `fault` both stop the machine (log 14). -/
def Obligations.UnmappedIdsFollowThePolicy : Prop :=
  ∀ (s : State) (id : BitVec 8) (x : Word), RegName.ofId id = .unmapped →
    (s.cfg.unmappedReg = .zero → regRead s id = .ok 0 ∧ regWrite s id x = .ok s) ∧
    (s.cfg.unmappedReg = .fault →
      regRead s id = .error (.fail (.unmappedRegister id)) ∧ regWrite s id x = .error (.fail (.unmappedRegister id)))

/-! ### Flags register (40_block_primitives.md R139 to R142) -/

/-- 40_block_primitives.md R140: a setter sets or clears its own bit, changes no other, and is idempotent. -/
def Obligations.FlagSetChangesOnlyItsBit : Prop :=
  ∀ (f : FlagBit) (b : Bool) (w : Word),
    (flagSet f b w).getLsbD f.pos = b ∧ (∀ i, i ≠ f.pos → (flagSet f b w).getLsbD i = w.getLsbD i) ∧
    flagSet f b (flagSet f b w) = flagSet f b w

/-- 40_block_primitives.md R139, R141 and 10_state.md R31: where the flags and IOPL stand, and that IOPL is set alone. The
positions are the spec's decision D7. -/
def Obligations.FlagFieldsStandWhereTheTableSays : Prop :=
  (∀ w, flagGet .carry w = w.getLsbD 0 ∧ flagGet .parity w = w.getLsbD 2 ∧ flagGet .adjust w = w.getLsbD 4 ∧
    flagGet .zero w = w.getLsbD 6 ∧ flagGet .sign w = w.getLsbD 7 ∧ flagGet .trap w = w.getLsbD 8 ∧
    flagGet .interrupt w = w.getLsbD 9 ∧ flagGet .direction w = w.getLsbD 10 ∧ flagGet .overflow w = w.getLsbD 11) ∧
  (∀ w, (ioplGet w).toNat = w.toNat / 2 ^ 12 % 4) ∧
  (∀ p w, ioplGet (ioplSet p w) = p ∧ ∀ i, i ≠ 12 → i ≠ 13 → (ioplSet p w).getLsbD i = w.getLsbD i)

/-- 40_block_primitives.md R142: the three outcomes of a comparison on Zero and Carry; the greater-than outcome is the
parameter `CMP_GT_POLICY` (the spec's decision D20); no other flag bit changes. -/
def Obligations.CompareSetsZeroAndCarryOnly : Prop :=
  ∀ (p : CmpGtPolicy) (w a b : Word),
    (a = b → flagGet .zero (compareFlags p w a b) = true ∧ flagGet .carry (compareFlags p w a b) = false) ∧
    (a.toNat < b.toNat →
      flagGet .zero (compareFlags p w a b) = false ∧ flagGet .carry (compareFlags p w a b) = true) ∧
    (b.toNat < a.toNat → p = .clearBoth →
      flagGet .zero (compareFlags p w a b) = false ∧ flagGet .carry (compareFlags p w a b) = false) ∧
    (b.toNat < a.toNat → p = .unchanged → compareFlags p w a b = w) ∧
    ∀ i, i ≠ 0 → i ≠ 6 → (compareFlags p w a b).getLsbD i = w.getLsbD i

/-! ### Address translator and memory (20_memory.md) -/

/-- 20_memory.md R70, R71, R72, R73: the two translation formulas, and that Long mode raises. That the sum is modulo 2^64 and
not reduced to 20 bits is the spec's decision D13 (log 22). -/
def Obligations.TranslatorFollowsTheModeFormula : Prop :=
  ∀ (seg : BitVec 16) (off : Word),
    (∃ a, translateAddr .real seg off = .ok a ∧ a.toNat = (seg.toNat * 16 + off.toNat) % 2 ^ 64) ∧
    (∃ a, translateAddr .prot seg off = .ok a ∧ a.toNat = (seg.toNat + off.toNat) % 2 ^ 64) ∧
    translateAddr .long seg off = .error (.raise (.unsupportedTranslation seg off))

/-- 20_memory.md R74: the effective address is flat in Long mode, and otherwise formed from the override's segment, or DS,
and the low 32 bits of the displacement. The default segment and the flat address are the spec's decisions D14, D15. -/
def Obligations.EffectiveAddressOfAnOperand : Prop :=
  ∀ (s : State) (h : Head) (disp : Word),
    (s.mode = .long → operandAddr s h disp = .ok disp) ∧
    (s.mode = .real → ∃ a, operandAddr s h disp = .ok a ∧
      a.toNat = (s.seg.get (h.ovr.getD .ds)).toNat * 16 + disp.toNat % 2 ^ 32) ∧
    (s.mode = .prot → ∃ a, operandAddr s h disp = .ok a ∧
      a.toNat = (s.seg.get (h.ovr.getD .ds)).toNat + disp.toNat % 2 ^ 32)

/-- 20_memory.md R63: an access wholly inside memory succeeds, an access with any byte outside raises OutOfBounds with its
address and size, and has no effect. -/
def Obligations.BoundsAreTheOnlyMemoryCheck : Prop :=
  ∀ (s : State) (a v : Word) (n : Nat),
    (a.toNat + n ≤ s.cfg.memSize → (∃ x, memRead s a n = .ok x) ∧ ∃ t, memWrite s a n v = .ok t) ∧
    (s.cfg.memSize < a.toNat + n →
      memRead s a n = .error (.raise (.outOfBounds a n)) ∧ memWrite s a n v = .error (.raise (.outOfBounds a n)))

/-- 20_memory.md R61: a read of up to eight bytes is little-endian (the byte order is the spec's decision D1). -/
def Obligations.MemoryReadIsLittleEndian : Prop :=
  ∀ (s : State) (a : Word) (n : Nat), n ≤ 8 → inBounds s a n →
    ∃ x, memRead s a n = .ok x ∧ x.toNat < 2 ^ (8 * n) ∧
      ∀ j, j < n → x.extractLsb' (8 * j) 8 = Memory.byteAt s.mem (a.toNat + j)

/-- 20_memory.md R62: a write stores byte `j` of the value at address `a + j` and changes no other byte and nothing else,
in a state whose memory is canonical. -/
def Obligations.MemoryWriteStoresItsBytesOnly : Prop :=
  ∀ (s : State) (a v : Word) (n : Nat), Memory.wf s.mem → inBounds s a n →
    ∃ t, memWrite s a n v = .ok t ∧ t = { s with mem := t.mem } ∧
      (∀ j, j < n → Memory.byteAt t.mem (a.toNat + j) = v.extractLsb' (8 * j) 8) ∧
      (∀ b, b < a.toNat ∨ a.toNat + n ≤ b → Memory.byteAt t.mem b = Memory.byteAt s.mem b)

/-! ### Operands (41_engine_cycle.md R165 to R170) -/

/-- 41_engine_cycle.md R165, R166, R167: the value of a register, memory and immediate operand; a memory operand is read
at its effective address at the mode's width whatever its decoded width, in Long mode too (`LONG_MEM_READ = flat`). -/
def Obligations.OperandValueByKind : Prop :=
  ∀ (s : State) (h : Head),
    (∀ id, value s h (.reg id) = regRead s id) ∧
    (∀ w disp a, (s.mode = .long → s.cfg.longMemRead = .flat) → operandAddr s h disp = .ok a →
      value s h (.mem w disp) = memRead s a (match s.mode with | .real => 2 | .prot => 4 | .long => 8)) ∧
    (∀ i, value s h (.imm i) = .ok i.val)

/-- 60_exceptions.md R244: under `LONG_MEM_READ = fault` a memory operand read in Long mode raises UnsupportedTranslation,
the operand read of Lgdt among them, which faults the engine and changes nothing else. What the error records, and that
Lgdt is covered, is the model's reading (log 15); that a raised error is a next state too (log 8, the spec's decision
D24). -/
def Obligations.LongModeReadUnderTheFaultPolicy : Prop :=
  ∀ (s : State) (h : Head) (w : OpWidth) (disp : Word), s.mode = .long → s.cfg.longMemRead = .fault →
    value s h (.mem w disp) = .error (.raise (.unsupportedTranslation (s.seg.get (h.ovr.getD .ds)) disp)) ∧
    exec (.lgdt h w disp) s =
      .next { s with engine := .faulted (.unsupportedTranslation (s.seg.get (h.ovr.getD .ds)) disp) }

/-! ### Data movement and arithmetic (42_data_alu.md) -/

/-- 42_data_alu.md R191: Mov puts the value of operand1 in operand0 and changes nothing else; operand0 is not read. -/
def Obligations.MovPutsTheSourceInTheDestination : Prop :=
  ∀ (h : Head) (d : Dest) (r : Source) (s : State) (v : Word),
    value s h r = .ok v → CanWrite s h d → exec (.mov h d r) s = .next (resultAt s h d v)

/-- 42_data_alu.md R190, R192 to R195: Add, Sub, And and Or put their result, modulo 2^64 and then narrowed by the
destination, in operand0 and change nothing else, no flag among them (the spec's decisions D19, D21). -/
def Obligations.ArithmeticPutsTheResultInTheDestination : Prop :=
  ∀ (h : Head) (d : Dest) (r : Source) (s : State) (a b : Word),
    value s h (destAsSource d) = .ok a → value s h r = .ok b → CanWrite s h d →
    exec (.add h d r) s = .next (resultAt s h d (a + b)) ∧
    exec (.sub h d r) s = .next (resultAt s h d (a - b)) ∧
    exec (.and h d r) s = .next (resultAt s h d (a &&& b)) ∧
    exec (.or h d r) s = .next (resultAt s h d (a ||| b))

/-- 42_data_alu.md R197: with a destination of width `n` (a view or a segment register) the four operations store the
result modulo 2^n. -/
def Obligations.ArithmeticWrapsAtTheDestinationWidth : Prop :=
  ∀ (h : Head) (id : BitVec 8) (r : Source) (s : State) (a b : Word),
    value s h (.reg id) = .ok a → value s h r = .ok b →
    (∀ v, RegName.ofId id = .view v →
      ∃ t1 t2 t3 t4, exec (.add h (.reg id) r) s = .next t1 ∧ exec (.sub h (.reg id) r) s = .next t2 ∧
        exec (.and h (.reg id) r) s = .next t3 ∧ exec (.or h (.reg id) r) s = .next t4 ∧
        (t1.gpr.read v).toNat = (a.toNat + b.toNat) % 2 ^ v.width ∧
        (t2.gpr.read v).toNat = (a.toNat + (2 ^ 64 - b.toNat)) % 2 ^ v.width ∧
        (t3.gpr.read v).toNat = (a.toNat &&& b.toNat) % 2 ^ v.width ∧
        (t4.gpr.read v).toNat = (a.toNat ||| b.toNat) % 2 ^ v.width) ∧
    (∀ q, RegName.ofId id = .seg q →
      ∃ t1 t2 t3 t4, exec (.add h (.reg id) r) s = .next t1 ∧ exec (.sub h (.reg id) r) s = .next t2 ∧
        exec (.and h (.reg id) r) s = .next t3 ∧ exec (.or h (.reg id) r) s = .next t4 ∧
        (t1.seg.get q).toNat = (a.toNat + b.toNat) % 2 ^ 16 ∧
        (t2.seg.get q).toNat = (a.toNat + (2 ^ 64 - b.toNat)) % 2 ^ 16 ∧
        (t3.seg.get q).toNat = (a.toNat &&& b.toNat) % 2 ^ 16 ∧
        (t4.seg.get q).toNat = (a.toNat ||| b.toNat) % 2 ^ 16)

/-- 41_engine_cycle.md R170, 42_data_alu.md R191: in Real and Protected mode a Mov to memory stores the low bytes of its
source at the operand's effective address, as many as the mode's width or, under `MEM_WRITE_WIDTH = operand_decoded`, the
decoded width (the spec's decision D17). -/
def Obligations.MovToMemoryStoresTheBytes : Prop :=
  ∀ (h : Head) (w : OpWidth) (disp : Word) (r : Source) (s : State) (v a : Word) (n : Nat),
    s.mode ≠ .long → Memory.wf s.mem → value s h r = .ok v → operandAddr s h disp = .ok a →
    n = (match s.cfg.memWriteWidth, s.mode with
      | .operandDecoded, _ => w.bytes | .modeDefault, .real => 2 | .modeDefault, .prot => 4 | .modeDefault, .long => 8) →
    a.toNat + n ≤ s.cfg.memSize →
    ∃ t, exec (.mov h (.mem w disp) r) s = .next t ∧
      (∀ j, j < n → Memory.byteAt t.mem (a.toNat + j) = v.extractLsb' (8 * j) 8) ∧
      (∀ b, b < a.toNat ∨ a.toNat + n ≤ b → Memory.byteAt t.mem b = Memory.byteAt s.mem b)

/-- 41_engine_cycle.md R170: in Long mode nothing is written to memory by an instruction with a Memory destination, and
nothing is raised for it, whatever the displacement. -/
def Obligations.LongModeMemoryWritesAreSuppressed : Prop :=
  ∀ (h : Head) (w : OpWidth) (disp : Word) (r : Source) (s : State) (v : Word),
    s.mode = .long → value s h r = .ok v →
    exec (.mov h (.mem w disp) r) s = .next s ∧
    (∀ a, value s h (.mem w disp) = .ok a →
      exec (.add h (.mem w disp) r) s = .next s ∧ exec (.sub h (.mem w disp) r) s = .next s ∧
      exec (.and h (.mem w disp) r) s = .next s ∧ exec (.or h (.mem w disp) r) s = .next s)

/-- 42_data_alu.md R196: Cmp compares its two operand values unsigned, writes Zero and Carry and nothing else; the
greater-than outcome is the parameter `CMP_GT_POLICY` (the spec's decision D20). -/
def Obligations.CmpWritesZeroAndCarry : Prop :=
  ∀ (h : Head) (d : Dest) (r : Source) (s : State) (a b : Word),
    value s h (destAsSource d) = .ok a → value s h r = .ok b →
    ∃ w, exec (.cmp h d r) s = .next { s with flags := w } ∧
      (a = b → flagGet .zero w = true ∧ flagGet .carry w = false) ∧
      (a.toNat < b.toNat → flagGet .zero w = false ∧ flagGet .carry w = true) ∧
      (b.toNat < a.toNat → s.cfg.cmpGt = .clearBoth → flagGet .zero w = false ∧ flagGet .carry w = false) ∧
      (b.toNat < a.toNat → s.cfg.cmpGt = .unchanged → w = s.flags) ∧
      (∀ i, i ≠ 0 → i ≠ 6 → w.getLsbD i = s.flags.getLsbD i)

/-! ### Control transfer (43_control.md) -/

/-- 43_control.md R210: Jmp writes rip with the value of its operand, absolute, and changes nothing else. -/
def Obligations.JmpWritesTheTarget : Prop :=
  ∀ (h : Head) (t : Source) (s : State) (v : Word),
    value s h t = .ok v → exec (.jmp h t) s = .next { s with rip := v }

/-- 43_control.md R211, R212: Je jumps to its immediate when Zero is set and Jne when it is clear; a jump not taken changes
nothing. Which of the two jumps on which state is the spec's decision D39. -/
def Obligations.ConditionalJumpsFollowZero : Prop :=
  ∀ (h : Head) (t : Imm) (s : State),
    (s.flags.getLsbD 6 = true →
      exec (.je h t) s = .next { s with rip := t.val } ∧ exec (.jne h t) s = .next s) ∧
    (s.flags.getLsbD 6 = false →
      exec (.je h t) s = .next s ∧ exec (.jne h t) s = .next { s with rip := t.val })

/-- 43_control.md R213: Hlt enters Halted and changes nothing else, and after it no state changes ever again. That a tick of
a halted block answers the same state is the model's reading (log 9). -/
def Obligations.HltEntersHaltedForEver : Prop :=
  ∀ (h : Head) (s : State),
    exec (.hlt h) s = .next { s with engine := .halted } ∧
    ∀ n, Sys2Proof.core.run n { s with engine := .halted } = .next { s with engine := .halted }

/-! ### System instructions (44_system.md) -/

/-- 44_system.md R220: Cli clears Interrupt-enable and changes nothing else. -/
def Obligations.CliClearsInterruptEnable : Prop :=
  ∀ (h : Head) (s : State), ∃ w, exec (.cli h) s = .next { s with flags := w } ∧
    ∀ i, w.getLsbD i = if i = FlagBit.interrupt.pos then false else s.flags.getLsbD i

/-- 40_block_primitives.md R143: Int does nothing while Interrupt-enable is clear, and nothing for any vector other than
0x10 or any sub-function other than 0x0E; otherwise it runs Teletype. -/
def Obligations.IntDispatchesOnlyTeletype : Prop :=
  ∀ (h : Head) (vec : Byte) (s : State),
    (flagGet .interrupt s.flags = false → exec (.int h vec) s = .next s) ∧
    (vec ≠ 0x10 ∨ (s.gpr.get .rax).extractLsb' 8 8 ≠ 0x0E#8 → exec (.int h vec) s = .next s) ∧
    (flagGet .interrupt s.flags = true → (s.gpr.get .rax).extractLsb' 8 8 = 0x0E#8 →
      exec (.int h 0x10) s = finish s (teletype s))

/-- 40_block_primitives.md R145, 44_system.md R221: the teletype service stores AL at the lowest address of the first zero
cell of the video region and changes nothing else; with no zero cell it changes nothing. The bounded scan, the test of a
cell and the single byte are the spec's decision D23. -/
def Obligations.TeletypeWritesTheFirstZeroCell : Prop :=
  ∀ (h : Head) (s : State), s.cfg.Wf → flagGet .interrupt s.flags = true → (s.gpr.get .rax).extractLsb' 8 8 = 0x0E#8 →
    (∀ k, k < 2000 → cellEmpty s k → (∀ j, j < k → ¬ cellEmpty s j) →
      exec (.int h 0x10) s =
        .next { s with
          mem := Memory.setByte s.mem (s.cfg.videoBase.toNat + k * s.cfg.videoCell.toNat)
            ((s.gpr.get .rax).extractLsb' 0 8) }) ∧
    ((∀ j, j < 2000 → ¬ cellEmpty s j) → exec (.int h 0x10) s = .next s)

/-- 44_system.md R222: Lgdt reads a 16-bit limit and a 32-bit base at its operand's address, logs them, and loads and
writes nothing. That the limit stands first is the spec's decision D33; the trace is the model's (log 11). -/
def Obligations.LgdtLogsLimitAndBase : Prop :=
  ∀ (h : Head) (w : OpWidth) (disp : Word) (s : State) (a : Word),
    (s.mode = .long → s.cfg.longMemRead = .flat) → operandAddr s h disp = .ok a →
    s.cfg.memSize ≤ 2 ^ 64 → a.toNat + 6 ≤ s.cfg.memSize →
    ∃ (limit : BitVec 16) (base : BitVec 32),
      exec (.lgdt h w disp) s = .next { s with log := s.log ++ [.lgdt limit base] } ∧
      (∀ j, j < 2 → limit.extractLsb' (8 * j) 8 = Memory.byteAt s.mem (a.toNat + j)) ∧
      (∀ j, j < 4 → base.extractLsb' (8 * j) 8 = Memory.byteAt s.mem (a.toNat + 2 + j))

/-- 44_system.md R223: each of the six rows of unrecognized codes logs its code and changes nothing else. -/
def Obligations.UnrecognizedCodesAreLoggedNoOps : Prop :=
  ∀ (h : Head) (s : State),
    exec (.unrec00 h) s = .next { s with log := s.log ++ [.unrecognized 0x00] } ∧
    (∀ lo, ∃ c : BitVec 8, 0x0E ≤ c.toNat ∧ c.toNat ≤ 0x0F ∧ c.toNat % 2 = lo.toNat ∧
      exec (.unrec0E h lo) s = .next { s with log := s.log ++ [.unrecognized c] }) ∧
    (∀ lo, ∃ c : BitVec 8, c.toNat = 0x10 + lo.toNat ∧
      exec (.unrec10 h lo) s = .next { s with log := s.log ++ [.unrecognized c] }) ∧
    (∀ lo, ∃ c : BitVec 8, c.toNat = 0x20 + lo.toNat ∧
      exec (.unrec20 h lo) s = .next { s with log := s.log ++ [.unrecognized c] }) ∧
    (∀ lo, ∃ c : BitVec 8, c.toNat = 0x40 + lo.toNat ∧
      exec (.unrec40 h lo) s = .next { s with log := s.log ++ [.unrecognized c] }) ∧
    (∀ lo, ∃ c : BitVec 8, c.toNat = 0x80 + lo.toNat ∧
      exec (.unrec80 h lo) s = .next { s with log := s.log ++ [.unrecognized c] })

/-! ### Errors (60_exceptions.md) -/

/-- 60_exceptions.md R246, R248 and 41_engine_cycle.md R171, R172: an error raised by an operand ends the instruction with
the engine Faulted and nothing else changed; operand0 is read before operand1, and both before the write. That a raised
error is a next state is the model's reading (log 8). -/
def Obligations.OperandErrorsFaultTheEngineInOrder : Prop :=
  ∀ (h : Head) (d : Dest) (r : Source) (s : State) (k : ErrorKind),
    (value s h (destAsSource d) = .error (.raise k) →
      ∀ i ∈ [Instr.add h d r, .sub h d r, .and h d r, .or h d r, .cmp h d r],
        exec i s = .next { s with engine := .faulted k }) ∧
    (∀ a, value s h (destAsSource d) = .ok a → value s h r = .error (.raise k) →
      ∀ i ∈ [Instr.add h d r, .sub h d r, .and h d r, .or h d r, .cmp h d r],
        exec i s = .next { s with engine := .faulted k }) ∧
    (value s h r = .error (.raise k) →
      exec (.mov h d r) s = .next { s with engine := .faulted k } ∧
      exec (.jmp h r) s = .next { s with engine := .faulted k })

/-- 20_memory.md R62, 44_system.md R222, 60_exceptions.md R243, R246, R248: a Mov, Add, Sub, And or Or whose operands can be
read and whose store to a Memory destination leaves memory, in Real or Protected mode, and an Lgdt whose limit or base
read leaves memory fault the engine with the first such access and change nothing else. For the four that read their
destination first this is a store wider than the read, under `MEM_WRITE_WIDTH = operand_decoded`. The layout of Lgdt's
operand is the spec's decision D33. -/
def Obligations.AccessOutsideMemoryFaultsTheEngine : Prop :=
  ∀ (h : Head) (w : OpWidth) (disp : Word) (s : State) (a : Word), operandAddr s h disp = .ok a →
    (∀ r v, s.mode ≠ .long → value s h r = .ok v → s.cfg.memSize < a.toNat + storeBytes s w →
      exec (.mov h (.mem w disp) r) s = .next { s with engine := .faulted (.outOfBounds a (storeBytes s w)) } ∧
      ∀ x, value s h (.mem w disp) = .ok x →
        ∀ i ∈ [Instr.add h (.mem w disp) r, .sub h (.mem w disp) r, .and h (.mem w disp) r, .or h (.mem w disp) r],
          exec i s = .next { s with engine := .faulted (.outOfBounds a (storeBytes s w)) }) ∧
    ((s.mode = .long → s.cfg.longMemRead = .flat) → s.cfg.memSize < 2 ^ 64 →
      (s.cfg.memSize < a.toNat + 2 →
        exec (.lgdt h w disp) s = .next { s with engine := .faulted (.outOfBounds a 2) }) ∧
      (a.toNat + 2 ≤ s.cfg.memSize → s.cfg.memSize < a.toNat + 6 →
        exec (.lgdt h w disp) s = .next { s with engine := .faulted (.outOfBounds (a + 2) 4) }))

/-- 40_block_primitives.md R137: under `UNMAPPED_REG_POLICY = fault` an instruction that reads or writes an unmapped
register operand stops, whichever of its operands that is; for an operand1 of the five that read operand0 first, where
that read answers (log 14). -/
def Obligations.UnmappedOperandStopsUnderTheFaultPolicy : Prop :=
  ∀ (h : Head) (id : BitVec 8) (d : Dest) (r : Source) (s : State) (v : Word),
    RegName.ofId id = .unmapped → s.cfg.unmappedReg = .fault →
    exec (.mov h d (.reg id)) s = .fault (.unmappedRegister id) ∧
    exec (.jmp h (.reg id)) s = .fault (.unmappedRegister id) ∧
    (value s h r = .ok v → exec (.mov h (.reg id) r) s = .fault (.unmappedRegister id)) ∧
    (∀ i ∈ [Instr.add h (.reg id) r, .sub h (.reg id) r, .and h (.reg id) r, .or h (.reg id) r, .cmp h (.reg id) r],
      exec i s = .fault (.unmappedRegister id)) ∧
    (∀ a, value s h (destAsSource d) = .ok a →
      ∀ i ∈ [Instr.add h d (.reg id), .sub h d (.reg id), .and h d (.reg id), .or h d (.reg id), .cmp h d (.reg id)],
        exec i s = .fault (.unmappedRegister id))

/-! ### Frames -/

/-- What Mov, Add, Sub, And and Or leave unchanged (42_data_alu.md R190, R191; 40_block_primitives.md R138 (c)): every
field but the destination's; every cell and segment register but the one named; every byte but those stored at the
operand's effective address, and every byte in Long mode; the engine unless an error is raised, and then everything else. -/
def Obligations.ResultInstructionsChangeOnlyTheDestination : Prop :=
  ∀ (i : Instr) (h : Head) (d : Dest) (s t : State), resultOf i = some (h, d) → exec i s = .next t →
    (t.rip = s.rip ∧ t.flags = s.flags ∧ t.mode = s.mode ∧ t.desc = s.desc ∧ t.gdt = s.gdt ∧ t.log = s.log ∧
      t.stopReq = s.stopReq ∧ t.cfg = s.cfg) ∧
    (t.engine = s.engine ∨ ∃ k, t = { s with engine := .faulted k }) ∧
    (∀ q, (∀ v, registerNamed d = .view v → q ≠ v.cell) → t.gpr.get q = s.gpr.get q) ∧
    (∀ q, registerNamed d ≠ .seg q → t.seg.get q = s.seg.get q) ∧
    (∀ id, d = .reg id → t.mem = s.mem) ∧
    (∀ w disp, d = .mem w disp → s.mode = .long → t.mem = s.mem) ∧
    (∀ w disp a, d = .mem w disp → operandAddr s h disp = .ok a →
      ∀ b, b < a.toNat ∨ a.toNat + storeBytes s w ≤ b → Memory.byteAt t.mem b = Memory.byteAt s.mem b)

/-- What the other instructions but Int leave unchanged: everything but the flags for Cmp and Cli, but rip for Jmp, Je and
Jne, but the log for Lgdt and the unrecognized codes, but the engine for Hlt and where an error is raised. -/
def Obligations.OtherInstructionsChangeOneField : Prop :=
  ∀ (h : Head) (s t : State),
    (∀ d r, exec (.cmp h d r) s = .next t →
      t = { s with flags := t.flags } ∨ ∃ k, t = { s with engine := .faulted k }) ∧
    (∀ r, exec (.jmp h r) s = .next t →
      t = { s with rip := t.rip } ∨ ∃ k, t = { s with engine := .faulted k }) ∧
    (∀ i, exec (.je h i) s = .next t ∨ exec (.jne h i) s = .next t → t = { s with rip := t.rip }) ∧
    (exec (.cli h) s = .next t → t = { s with flags := t.flags }) ∧
    (exec (.hlt h) s = .next t → t = { s with engine := t.engine }) ∧
    (∀ w disp, exec (.lgdt h w disp) s = .next t →
      t = { s with log := t.log } ∨ ∃ k, t = { s with engine := .faulted k }) ∧
    (exec (.unrec00 h) s = .next t → t = { s with log := t.log }) ∧
    (∀ lo, exec (.unrec0E h lo) s = .next t → t = { s with log := t.log }) ∧
    (∀ lo, exec (.unrec10 h lo) s = .next t → t = { s with log := t.log }) ∧
    (∀ lo, exec (.unrec20 h lo) s = .next t → t = { s with log := t.log }) ∧
    (∀ lo, exec (.unrec40 h lo) s = .next t → t = { s with log := t.log }) ∧
    (∀ lo, exec (.unrec80 h lo) s = .next t → t = { s with log := t.log })

/-- 40_block_primitives.md R144: with the parameters as the spec constrains them, the only state Int can change is one byte
of the video region, the lowest of a cell that was zero; every vector and sub-function but the one implemented is silently
ignored; it never faults. -/
def Obligations.IntChangesAtMostOneVideoByte : Prop :=
  ∀ (h : Head) (vec : Byte) (s : State), s.cfg.Wf →
    ∃ t, exec (.int h vec) s = .next t ∧ t = { s with mem := t.mem } ∧
      (vec ≠ 0x10 ∨ s.gpr.read (.high8 .rax) ≠ 0x0E → t = s) ∧
      (∀ b, Memory.byteAt t.mem b ≠ Memory.byteAt s.mem b →
        ∃ k, k < 2000 ∧ b = s.cfg.videoBase.toNat + k * s.cfg.videoCell.toNat ∧ cellEmpty s k) ∧
      (∀ b c, Memory.byteAt t.mem b ≠ Memory.byteAt s.mem b → Memory.byteAt t.mem c ≠ Memory.byteAt s.mem c → b = c)

/-! ### The engine (41_engine_cycle.md) -/

/-- 41_engine_cycle.md R161: the fetch address is rip modulo 2^W of the mode; the strict window is the fifteen bytes from
there, the clipped one those of them that lie in memory (the spec's decision D11). -/
def Obligations.FetchWindowIsTheBytesAtRip : Prop :=
  ∀ s : State,
    (fetchAddr s).toNat = s.rip.toNat % 2 ^ (match s.mode with | .real => 16 | .prot => 32 | .long => 64) ∧
    (fetchBytes s).length = (match s.cfg.fetchWindow with
      | .strict15 => 15 | .clip => min 15 (s.cfg.memSize - (fetchAddr s).toNat)) ∧
    (∀ j b, (fetchBytes s)[j]? = some b → b = Memory.byteAt s.mem ((fetchAddr s).toNat + j)) ∧
    (fetchInBounds s = true ↔ match s.cfg.fetchWindow with
      | .strict15 => (fetchAddr s).toNat + 15 ≤ s.cfg.memSize | .clip => (fetchAddr s).toNat < s.cfg.memSize)

/-- 41_engine_cycle.md R160, R163, R164: when the engine runs, the fetch stays in memory and the decoder answers a word that
decodes to an instruction, the step is that instruction run in the state whose rip has advanced by its length, modulo
2^64. -/
def Obligations.StepRunsTheDecodedInstruction : Prop :=
  ∀ (s : State) (d : Diw) (i : Instr), Running s → fetchInBounds s = true →
    consult s.cfg.decoder (fetchBytes s) s.mode (fetchAddr s) = some d → decode d = .ok i →
    step s = exec i { s with rip := s.rip + i.head.len.setWidth 64 }

/-- 60_exceptions.md R241: a decode-failure signal or a malformed word faults the engine with DecodeFailure and the fetch
address; everything else is exactly as before the step, rip among it. -/
def Obligations.DecodeFailureFaultsTheEngine : Prop :=
  ∀ s : State, Running s → fetchInBounds s = true →
    (consult s.cfg.decoder (fetchBytes s) s.mode (fetchAddr s) = none ∨
      ∃ d, consult s.cfg.decoder (fetchBytes s) s.mode (fetchAddr s) = some d ∧ decode d = .malformed) →
    step s = .next { s with engine := .faulted (.decodeFailure (fetchAddr s)) }

/-- 41_engine_cycle.md R161: a fetch window that leaves memory faults the engine with OutOfBounds, and everything else is
as before the step. The strict window is the spec's decision D11, the count under `clip` the model's (log 16). -/
def Obligations.FetchOutsideMemoryFaultsTheEngine : Prop :=
  ∀ s : State, Running s →
    (s.cfg.fetchWindow = .strict15 → s.cfg.memSize < (fetchAddr s).toNat + 15 →
      step s = .next { s with engine := .faulted (.outOfBounds (fetchAddr s) 15) }) ∧
    (s.cfg.fetchWindow = .clip → s.cfg.memSize ≤ (fetchAddr s).toNat →
      step s = .next { s with engine := .faulted (.outOfBounds (fetchAddr s) 15) })

/-- 30_encoding.md R109, 41_engine_cycle.md R164: a word whose shape is not admitted has no step (the spec's decision D22,
log 13). -/
def Obligations.ShapeNotAdmittedHasNoStep : Prop :=
  ∀ (s : State) (d : Diw) (m : String), Running s → fetchInBounds s = true →
    consult s.cfg.decoder (fetchBytes s) s.mode (fetchAddr s) = some d → decode d = .notAdmitted m →
    step s = .refused (.shapeNotAdmitted m)

/-- 41_engine_cycle.md R173, R174, 60_exceptions.md R246: a halted, faulted or stopped block changes nothing in any number
of ticks. That such a tick answers the same state is the model's reading (log 9, log 10). -/
def Obligations.StoppedBlockNeverChanges : Prop :=
  ∀ (s : State) (n : Nat), (s.engine ≠ .fetch ∨ s.stopReq = true) → Sys2Proof.core.run n s = .next s

/-! ### Invariants and whole-machine rules -/

/-- Every step keeps memory canonical and inside the arena of MEM_SIZE bytes (20_memory.md R60, R62, R63). -/
def Obligations.StepKeepsMemoryInvariant : Prop :=
  ∀ s t : State, MemoryInv s → step s = .next t → MemoryInv t

/-- The reset state meets the memory invariant. -/
def Obligations.ResetMeetsMemoryInvariant : Prop := MemoryInv State.reset

/-- Every boot state meets the memory invariant, whatever the parameters, the mode and the disk. -/
def Obligations.BootMeetsMemoryInvariant : Prop :=
  ∀ (p : BootParams) (c : Config) (m : Mode) (disk : Option Sector), p.Fits c → MemoryInv (boot p c m disk)

/-- 10_state.md R32, R33, R34: no step changes the mode, the descriptor cache, the descriptor table or the parameters, nor
the stop line, which is the host's (log 1, log 10). -/
def Obligations.StepKeepsWhatOnlyConstructionSets : Prop :=
  ∀ s t : State, step s = .next t →
    t.mode = s.mode ∧ t.desc = s.desc ∧ t.gdt = s.gdt ∧ t.cfg = s.cfg ∧ t.stopReq = s.stopReq

/-- 10_state.md R31: a step drives no flag bit but Carry, Zero and Interrupt-enable, and never sets Interrupt-enable. The
bit positions are the spec's decision D7. -/
def Obligations.StepDrivesOnlyCarryZeroInterrupt : Prop :=
  ∀ s t : State, step s = .next t →
    (∀ i, i ≠ 0 → i ≠ 6 → i ≠ 9 → t.flags.getLsbD i = s.flags.getLsbD i) ∧
    (s.flags.getLsbD 9 = false → t.flags.getLsbD 9 = false)

/-- 41_engine_cycle.md R160, R172 and 60_exceptions.md R247: a running block reaches Halted only by Hlt, and a step that
faults has changed nothing but the engine and, where an instruction was decoded, rip, which holds the next sequential
address. That a raised error is a next state is the model's reading (log 8), the engine state Faulted the spec's decision
D24. -/
def Obligations.EngineLeavesFetchOnlyByHltOrAPreciseFault : Prop :=
  ∀ s t : State, Running s → step s = .next t →
    t.engine = .fetch ∨
    (t.engine = .halted ∧ ∃ h, fetchDecode s = .instr (.hlt h)) ∨
    ∃ k, t.engine = .faulted k ∧
      (t = { s with engine := .faulted k } ∨
        ∃ i, fetchDecode s = .instr i ∧
          t = { s with rip := s.rip + i.head.len.setWidth 64, engine := .faulted k })

/-- 20_memory.md R75, 10_state.md R33: the descriptor cache and the descriptor table have no influence on any step: with
others in their place the step answers the same but for them. -/
def Obligations.DescriptorsInfluenceNoStep : Prop :=
  ∀ (s : State) (d : DescCache) (g : List GdtEntry),
    step (withDescriptors d g s) = mapNext (withDescriptors d g) (step s)

/-! ### Construction and boot (70_reset_and_hazards.md), and the ports no instruction drives -/

/-- 10_state.md R40, 70_reset_and_hazards.md R280, R281: the whole state after boot, for every value of the parameters and
every sector. That SP is written through its 16-bit view is the spec's decision D35; the empty log trace and the low stop
line are the model's choices (log 11, log 10). -/
def Obligations.BootEstablishesTheStateOfTheTable : Prop :=
  ∀ (p : BootParams) (c : Config) (m : Mode) (sec : Sector), p.Fits c →
    let s := boot p c m (some sec)
    s.engine = .fetch ∧ s.rip = p.resetIp ∧ s.flags = p.initFlags ∧ s.mode = m ∧ s.desc = p.descInit ∧
    s.gdt = p.gdtInit ∧ s.cfg = c ∧ s.log = [] ∧ s.stopReq = false ∧
    s.seg = { p.initSeg with cs := p.resetCs, ds := 0, ss := 0 } ∧
    (∀ q, q ≠ .rsp → s.gpr.get q = p.initGpr.get q) ∧
    (∀ i, (s.gpr.get .rsp).getLsbD i = if i < 16 then p.resetSp.getLsbD i else (p.initGpr.get .rsp).getLsbD i) ∧
    (∀ j (hj : j < 512), Memory.byteAt s.mem (p.resetIp.toNat + j) = sec[j]) ∧
    (∀ b, b < p.resetIp.toNat ∨ p.resetIp.toNat + 512 ≤ b → Memory.byteAt s.mem b = 0)

/-- 60_exceptions.md R242, 70_reset_and_hazards.md R282: a disk that fails leaves the engine Faulted with StorageFailure,
and no instruction is ever fetched. -/
def Obligations.FailedDiskAbortsTheBoot : Prop :=
  ∀ (p : BootParams) (c : Config) (m : Mode) (n : Nat),
    (boot p c m none).engine = .faulted .storageFailure ∧
    Sys2Proof.core.run n (boot p c m none) = .next (boot p c m none)

/-- The reset state is the boot state of the reference parameters in Real mode with a disk of zeros: the model's choices
(log 2 to log 7), no rule of the spec. -/
def Obligations.ResetIsTheReferenceBoot : Prop :=
  State.reset = boot BootParams.reference Config.reference .real (some (Vector.replicate 512 0))

/-- 40_block_primitives.md R146: LoadSegment copies the slot that the top 13 bits of the selector index into one
descriptor-cache entry, and changes nothing where the table has no such slot (the spec's decision D26). -/
def Obligations.LoadSegmentCopiesTheIndexedSlot : Prop :=
  ∀ (s : State) (n : DescName) (sel : BitVec 16),
    (∀ e, s.gdt[sel.toNat / 8]? = some e →
      (loadSegment s n sel).desc.get n = ⟨sel, e.base, e.limit, e.access⟩ ∧
      (∀ o, o ≠ n → (loadSegment s n sel).desc.get o = s.desc.get o) ∧
      loadSegment s n sel = { s with desc := (loadSegment s n sel).desc }) ∧
    (s.gdt.length ≤ sel.toNat / 8 → loadSegment s n sel = s)
end

