-- ==== Sys2Proof/Laws/State.lean ====
section
/-!
SUPPORT. One lemma per field and field update of the state, so that no proof unfolds an update.
-/

namespace Sys2Proof.Machine

section
variable (s : State) (g : Gprs)

@[simp] theorem State.setGpr_gpr : (s.setGpr g).gpr = g := rfl
@[simp] theorem State.setGpr_seg : (s.setGpr g).seg = s.seg := rfl
@[simp] theorem State.setGpr_rip : (s.setGpr g).rip = s.rip := rfl
@[simp] theorem State.setGpr_flags : (s.setGpr g).flags = s.flags := rfl
@[simp] theorem State.setGpr_mode : (s.setGpr g).mode = s.mode := rfl
@[simp] theorem State.setGpr_desc : (s.setGpr g).desc = s.desc := rfl
@[simp] theorem State.setGpr_gdt : (s.setGpr g).gdt = s.gdt := rfl
@[simp] theorem State.setGpr_engine : (s.setGpr g).engine = s.engine := rfl
@[simp] theorem State.setGpr_mem : (s.setGpr g).mem = s.mem := rfl
@[simp] theorem State.setGpr_log : (s.setGpr g).log = s.log := rfl
@[simp] theorem State.setGpr_stopReq : (s.setGpr g).stopReq = s.stopReq := rfl
@[simp] theorem State.setGpr_cfg : (s.setGpr g).cfg = s.cfg := rfl

end

section
variable (s : State) (g : Segs)

@[simp] theorem State.setSeg_gpr : (s.setSeg g).gpr = s.gpr := rfl
@[simp] theorem State.setSeg_seg : (s.setSeg g).seg = g := rfl
@[simp] theorem State.setSeg_rip : (s.setSeg g).rip = s.rip := rfl
@[simp] theorem State.setSeg_flags : (s.setSeg g).flags = s.flags := rfl
@[simp] theorem State.setSeg_mode : (s.setSeg g).mode = s.mode := rfl
@[simp] theorem State.setSeg_desc : (s.setSeg g).desc = s.desc := rfl
@[simp] theorem State.setSeg_gdt : (s.setSeg g).gdt = s.gdt := rfl
@[simp] theorem State.setSeg_engine : (s.setSeg g).engine = s.engine := rfl
@[simp] theorem State.setSeg_mem : (s.setSeg g).mem = s.mem := rfl
@[simp] theorem State.setSeg_log : (s.setSeg g).log = s.log := rfl
@[simp] theorem State.setSeg_stopReq : (s.setSeg g).stopReq = s.stopReq := rfl
@[simp] theorem State.setSeg_cfg : (s.setSeg g).cfg = s.cfg := rfl

end

section
variable (s : State) (w : Word)

@[simp] theorem State.setRip_gpr : (s.setRip w).gpr = s.gpr := rfl
@[simp] theorem State.setRip_seg : (s.setRip w).seg = s.seg := rfl
@[simp] theorem State.setRip_rip : (s.setRip w).rip = w := rfl
@[simp] theorem State.setRip_flags : (s.setRip w).flags = s.flags := rfl
@[simp] theorem State.setRip_mode : (s.setRip w).mode = s.mode := rfl
@[simp] theorem State.setRip_desc : (s.setRip w).desc = s.desc := rfl
@[simp] theorem State.setRip_gdt : (s.setRip w).gdt = s.gdt := rfl
@[simp] theorem State.setRip_engine : (s.setRip w).engine = s.engine := rfl
@[simp] theorem State.setRip_mem : (s.setRip w).mem = s.mem := rfl
@[simp] theorem State.setRip_log : (s.setRip w).log = s.log := rfl
@[simp] theorem State.setRip_stopReq : (s.setRip w).stopReq = s.stopReq := rfl
@[simp] theorem State.setRip_cfg : (s.setRip w).cfg = s.cfg := rfl

end

section
variable (s : State) (w : Word)

@[simp] theorem State.setFlags_gpr : (s.setFlags w).gpr = s.gpr := rfl
@[simp] theorem State.setFlags_seg : (s.setFlags w).seg = s.seg := rfl
@[simp] theorem State.setFlags_rip : (s.setFlags w).rip = s.rip := rfl
@[simp] theorem State.setFlags_flags : (s.setFlags w).flags = w := rfl
@[simp] theorem State.setFlags_mode : (s.setFlags w).mode = s.mode := rfl
@[simp] theorem State.setFlags_desc : (s.setFlags w).desc = s.desc := rfl
@[simp] theorem State.setFlags_gdt : (s.setFlags w).gdt = s.gdt := rfl
@[simp] theorem State.setFlags_engine : (s.setFlags w).engine = s.engine := rfl
@[simp] theorem State.setFlags_mem : (s.setFlags w).mem = s.mem := rfl
@[simp] theorem State.setFlags_log : (s.setFlags w).log = s.log := rfl
@[simp] theorem State.setFlags_stopReq : (s.setFlags w).stopReq = s.stopReq := rfl
@[simp] theorem State.setFlags_cfg : (s.setFlags w).cfg = s.cfg := rfl

end

section
variable (s : State) (d : DescCache)

@[simp] theorem State.setDesc_gpr : (s.setDesc d).gpr = s.gpr := rfl
@[simp] theorem State.setDesc_seg : (s.setDesc d).seg = s.seg := rfl
@[simp] theorem State.setDesc_rip : (s.setDesc d).rip = s.rip := rfl
@[simp] theorem State.setDesc_flags : (s.setDesc d).flags = s.flags := rfl
@[simp] theorem State.setDesc_mode : (s.setDesc d).mode = s.mode := rfl
@[simp] theorem State.setDesc_desc : (s.setDesc d).desc = d := rfl
@[simp] theorem State.setDesc_gdt : (s.setDesc d).gdt = s.gdt := rfl
@[simp] theorem State.setDesc_engine : (s.setDesc d).engine = s.engine := rfl
@[simp] theorem State.setDesc_mem : (s.setDesc d).mem = s.mem := rfl
@[simp] theorem State.setDesc_log : (s.setDesc d).log = s.log := rfl
@[simp] theorem State.setDesc_stopReq : (s.setDesc d).stopReq = s.stopReq := rfl
@[simp] theorem State.setDesc_cfg : (s.setDesc d).cfg = s.cfg := rfl

end

section
variable (s : State) (e : Engine)

@[simp] theorem State.setEngine_gpr : (s.setEngine e).gpr = s.gpr := rfl
@[simp] theorem State.setEngine_seg : (s.setEngine e).seg = s.seg := rfl
@[simp] theorem State.setEngine_rip : (s.setEngine e).rip = s.rip := rfl
@[simp] theorem State.setEngine_flags : (s.setEngine e).flags = s.flags := rfl
@[simp] theorem State.setEngine_mode : (s.setEngine e).mode = s.mode := rfl
@[simp] theorem State.setEngine_desc : (s.setEngine e).desc = s.desc := rfl
@[simp] theorem State.setEngine_gdt : (s.setEngine e).gdt = s.gdt := rfl
@[simp] theorem State.setEngine_engine : (s.setEngine e).engine = e := rfl
@[simp] theorem State.setEngine_mem : (s.setEngine e).mem = s.mem := rfl
@[simp] theorem State.setEngine_log : (s.setEngine e).log = s.log := rfl
@[simp] theorem State.setEngine_stopReq : (s.setEngine e).stopReq = s.stopReq := rfl
@[simp] theorem State.setEngine_cfg : (s.setEngine e).cfg = s.cfg := rfl

end

section
variable (s : State) (m : Memory)

@[simp] theorem State.setMem_gpr : (s.setMem m).gpr = s.gpr := rfl
@[simp] theorem State.setMem_seg : (s.setMem m).seg = s.seg := rfl
@[simp] theorem State.setMem_rip : (s.setMem m).rip = s.rip := rfl
@[simp] theorem State.setMem_flags : (s.setMem m).flags = s.flags := rfl
@[simp] theorem State.setMem_mode : (s.setMem m).mode = s.mode := rfl
@[simp] theorem State.setMem_desc : (s.setMem m).desc = s.desc := rfl
@[simp] theorem State.setMem_gdt : (s.setMem m).gdt = s.gdt := rfl
@[simp] theorem State.setMem_engine : (s.setMem m).engine = s.engine := rfl
@[simp] theorem State.setMem_mem : (s.setMem m).mem = m := rfl
@[simp] theorem State.setMem_log : (s.setMem m).log = s.log := rfl
@[simp] theorem State.setMem_stopReq : (s.setMem m).stopReq = s.stopReq := rfl
@[simp] theorem State.setMem_cfg : (s.setMem m).cfg = s.cfg := rfl

end

section
variable (s : State) (e : LogEvent)

@[simp] theorem State.emit_gpr : (s.emit e).gpr = s.gpr := rfl
@[simp] theorem State.emit_seg : (s.emit e).seg = s.seg := rfl
@[simp] theorem State.emit_rip : (s.emit e).rip = s.rip := rfl
@[simp] theorem State.emit_flags : (s.emit e).flags = s.flags := rfl
@[simp] theorem State.emit_mode : (s.emit e).mode = s.mode := rfl
@[simp] theorem State.emit_desc : (s.emit e).desc = s.desc := rfl
@[simp] theorem State.emit_gdt : (s.emit e).gdt = s.gdt := rfl
@[simp] theorem State.emit_engine : (s.emit e).engine = s.engine := rfl
@[simp] theorem State.emit_mem : (s.emit e).mem = s.mem := rfl
@[simp] theorem State.emit_log : (s.emit e).log = s.log ++ [e] := rfl
@[simp] theorem State.emit_stopReq : (s.emit e).stopReq = s.stopReq := rfl
@[simp] theorem State.emit_cfg : (s.emit e).cfg = s.cfg := rfl

end

@[simp] theorem advance_eq_setRip (len : BitVec 4) (s : State) :
    advance len s = s.setRip (s.rip + len.setWidth 64) := rfl

end Sys2Proof.Machine
end

