-- ==== Sys2Proof/Laws/Ops.lean ====
section
/-!
SUPPORT. What each shared operation of Machine/Ops.lean does, said once: registers, memory, errors.
-/

namespace Sys2Proof.Machine

/-! ### Results and errors -/

@[simp] theorem res_ok_bind {α β : Type} (a : α) (f : α → Res β) : ((.ok a : Res α) >>= f) = f a := rfl

@[simp] theorem res_error_bind {α β : Type} (e : Stop) (f : α → Res β) : ((.error e : Res α) >>= f) = .error e := rfl

/-- A bind that answers, answered at both ends. -/
theorem res_bind_ok {α β : Type} {x : Res α} {f : α → Res β} {b : β} :
    (x >>= f) = .ok b ↔ ∃ a, x = .ok a ∧ f a = .ok b := by
  cases x <;> simp

/-- How an Execute phase answers a next state: its result, or the raised error in the state it began in. -/
theorem finish_next {s t : State} {r : Res State} :
    finish s r = .next t ↔ r = .ok t ∨ ∃ k, r = .error (.raise k) ∧ t = s.setEngine (.faulted k) := by
  rcases r with (k | f) | u <;> simp [finish, raise, eq_comm]

@[simp] theorem finish_ok (s t : State) : finish s (.ok t) = .next t := rfl

@[simp] theorem finish_raise (s : State) (k : ErrorKind) :
    finish s (.error (.raise k)) = .next (s.setEngine (.faulted k)) := rfl

@[simp] theorem finish_fail (s : State) (f : Fault) : finish s (.error (.fail f)) = .fault f := rfl

/-! ### Registers -/

@[simp] theorem Gprs.get_set_self (g : Gprs) (r : Gpr) (v : Word) : (g.set r v).get r = v := by
  cases r <;> rfl

theorem Gprs.get_set_ne (g : Gprs) {r q : Gpr} (v : Word) (h : q ≠ r) : (g.set r v).get q = g.get q := by
  cases r <;> cases q <;> first | rfl | exact absurd rfl h

@[simp] theorem Segs.get_set_self (g : Segs) (r : SegReg) (v : BitVec 16) : (g.set r v).get r = v := by
  cases r <;> rfl

theorem Segs.get_set_ne (g : Segs) {r q : SegReg} (v : BitVec 16) (h : q ≠ r) : (g.set r v).get q = g.get q := by
  cases r <;> cases q <;> first | rfl | exact absurd rfl h

@[simp] theorem Gprs.get_write_cell (g : Gprs) (v : View) (x : Word) :
    (g.write v x).get v.cell = v.merge (g.get v.cell) x := Gprs.get_set_self ..

theorem Gprs.get_write_ne (g : Gprs) (v : View) (x : Word) {q : Gpr} (h : q ≠ v.cell) :
    (g.write v x).get q = g.get q := Gprs.get_set_ne g _ h

/-- What a register write that answers has done. -/
theorem regWrite_ok {s t : State} {id : BitVec 8} {x : Word} (h : regWrite s id x = .ok t) :
    (∃ v, RegName.ofId id = .view v ∧ t = s.setGpr (s.gpr.write v x)) ∨
    (∃ q, RegName.ofId id = .seg q ∧ t = s.setSeg (s.seg.set q (x.extractLsb' 0 16))) ∨
    (RegName.ofId id = .unmapped ∧ s.cfg.unmappedReg = .zero ∧ t = s) := by
  unfold regWrite at h
  split at h
  · next v hv => exact .inl ⟨v, hv, by simpa using h.symm⟩
  · next q hq => exact .inr (.inl ⟨q, hq, by simpa using h.symm⟩)
  · next hu =>
    unfold unmapped at h
    split at h
    · next hz => exact .inr (.inr ⟨hu, hz, by simpa using h.symm⟩)
    · cases h

/-! ### Memory -/

theorem memRead_ok {s : State} {a v : Word} {n : Nat} :
    memRead s a n = .ok v ↔ inBounds s a n ∧ v = BitVec.ofNat 64 (Memory.readNat s.mem a.toNat n) := by
  unfold memRead
  split <;> simp_all [eq_comm]

theorem memWrite_ok {s t : State} {a v : Word} {n : Nat} :
    memWrite s a n v = .ok t ↔ inBounds s a n ∧ t = s.setMem (Memory.writeBytes s.mem a.toNat v n) := by
  unfold memWrite
  split <;> simp_all [eq_comm]

/-- A byte write leaves every other byte alone. -/
theorem Memory.byteAt_setByte_ne (m : Memory) {a b : Nat} (v : Byte) (h : b ≠ a) :
    Memory.byteAt (Memory.setByte m a v) b = Memory.byteAt m b := by
  induction m with
  | nil =>
    unfold Memory.setByte
    split <;> simp [Memory.byteAt, h.symm]
  | cons c m ih =>
    obtain ⟨k, w⟩ := c
    unfold Memory.setByte
    split
    · split <;> simp [Memory.byteAt, h.symm]
    · split
      · next hak => subst hak; split <;> simp [Memory.byteAt, h.symm]
      · simp [Memory.byteAt, ih]

/-- An address below every listed one reads 0. -/
theorem Memory.byteAt_of_lt {m : Memory} {a : Nat} (h : ∀ c ∈ m, a < c.1) : Memory.byteAt m a = 0 := by
  induction m with
  | nil => rfl
  | cons c m ih =>
    obtain ⟨k, w⟩ := c
    have hk : a < k := h (k, w) (by simp)
    rw [Memory.byteAt, if_neg (by omega)]
    exact ih fun c hc => h c (by simp [hc])

/-- A byte write to a canonical memory is read back. -/
theorem Memory.byteAt_setByte_self {m : Memory} (hm : Memory.wf m) (a : Nat) (v : Byte) :
    Memory.byteAt (Memory.setByte m a v) a = v := by
  induction m with
  | nil =>
    unfold Memory.setByte
    split <;> simp_all [Memory.byteAt]
  | cons c m ih =>
    obtain ⟨k, w⟩ := c
    obtain ⟨hs, hz⟩ := hm
    rw [List.pairwise_cons] at hs
    have below : ∀ {x}, x ≤ k → ∀ c ∈ m, x < c.1 := fun hx c hc => Nat.lt_of_le_of_lt hx (hs.1 c hc)
    unfold Memory.setByte
    split
    · next hak =>
      split
      · next hv =>
        rw [hv, Memory.byteAt, if_neg (by omega)]
        exact Memory.byteAt_of_lt (below (by omega))
      · simp [Memory.byteAt]
    · split
      · next hak =>
        split
        · next hv => rw [hv]; exact Memory.byteAt_of_lt (below (by omega))
        · simp [Memory.byteAt]
      · next hne =>
        rw [Memory.byteAt, if_neg (by omega)]
        exact ih ⟨hs.2, fun c hc => hz c (by simp [hc])⟩

/-- The cells of a memory after a byte write: old ones, or the byte written, which is not 0. -/
theorem Memory.mem_setByte {m : Memory} {a : Nat} {v : Byte} {c : Host.Cell} (h : c ∈ Memory.setByte m a v) :
    c ∈ m ∨ (c = (a, v) ∧ v ≠ 0) := by
  induction m with
  | nil =>
    unfold Memory.setByte at h
    split at h <;> simp_all
  | cons d m ih =>
    obtain ⟨k, w⟩ := d
    unfold Memory.setByte at h
    split at h
    · split at h
      · exact .inl h
      · rcases List.mem_cons.1 h with h | h
        · exact .inr ⟨h, ‹_›⟩
        · exact .inl h
    · split at h
      · split at h
        · exact .inl (List.mem_cons_of_mem _ h)
        · rcases List.mem_cons.1 h with h | h
          · exact .inr ⟨h, ‹_›⟩
          · exact .inl (List.mem_cons_of_mem _ h)
      · rcases List.mem_cons.1 h with h | h
        · exact .inl (by simp [h])
        · rcases ih h with h | h
          · exact .inl (List.mem_cons_of_mem _ h)
          · exact .inr h

/-- A byte write keeps the canonical form. -/
theorem Memory.wf_setByte {m : Memory} (hm : Memory.wf m) (a : Nat) (v : Byte) : Memory.wf (Memory.setByte m a v) := by
  refine ⟨?_, fun c hc => ?_⟩
  · replace hm := hm.1
    induction m with
    | nil =>
      unfold Memory.setByte
      split <;> simp
    | cons d m ih =>
      obtain ⟨k, w⟩ := d
      have hs := List.pairwise_cons.1 hm
      unfold Memory.setByte
      split
      · next hak =>
        split
        · exact hm
        · refine List.pairwise_cons.2 ⟨fun c hc => ?_, hm⟩
          rcases List.mem_cons.1 hc with rfl | hc
          · exact hak
          · exact Nat.lt_trans hak (hs.1 c hc)
      · split
        · next hak =>
          split
          · exact hs.2
          · exact List.pairwise_cons.2 ⟨fun c hc => hak ▸ hs.1 c hc, hs.2⟩
        · refine List.pairwise_cons.2 ⟨fun c hc => ?_, ih hs.2⟩
          rcases Memory.mem_setByte hc with hc | ⟨rfl, -⟩
          · exact hs.1 c hc
          · show k < a
            omega
  · rcases Memory.mem_setByte hc with hc | ⟨rfl, hv⟩
    · exact hm.2 c hc
    · exact hv

theorem Memory.wf_writeBytes {m : Memory} (hm : Memory.wf m) (a : Nat) (v : Word) (n : Nat) :
    Memory.wf (Memory.writeBytes m a v n) := by
  induction n generalizing m a v with
  | zero => exact hm
  | succ n ih => exact ih (Memory.wf_setByte hm a _) (a + 1) (v >>> 8)

/-- The cells of a memory after a write of `n` bytes: old ones, or cells of the bytes written. -/
theorem Memory.mem_writeBytes {m : Memory} {a n : Nat} {v : Word} {c : Host.Cell}
    (h : c ∈ Memory.writeBytes m a v n) : c ∈ m ∨ (a ≤ c.1 ∧ c.1 < a + n) := by
  induction n generalizing m a v with
  | zero => exact .inl h
  | succ n ih =>
    rcases ih h with h | h
    · rcases Memory.mem_setByte h with h | ⟨rfl, -⟩
      · exact .inl h
      · exact .inr ⟨Nat.le_refl a, by show a < a + (n + 1); omega⟩
    · exact .inr (by omega)

/-- A write of `n` bytes leaves every byte outside them alone. -/
theorem Memory.byteAt_writeBytes_outside (m : Memory) {a b n : Nat} (v : Word) (h : b < a ∨ a + n ≤ b) :
    Memory.byteAt (Memory.writeBytes m a v n) b = Memory.byteAt m b := by
  induction n generalizing m a v with
  | zero => rfl
  | succ n ih =>
    rw [Memory.writeBytes, ih _ _ (by omega)]
    exact Memory.byteAt_setByte_ne m _ (by omega)

/-- A write of `n` bytes to a canonical memory stores byte `j` of the value at `a + j`. -/
theorem Memory.byteAt_writeBytes_inside {m : Memory} (hm : Memory.wf m) (a : Nat) (v : Word) {j n : Nat} (h : j < n) :
    Memory.byteAt (Memory.writeBytes m a v n) (a + j) = v.extractLsb' (8 * j) 8 := by
  induction n generalizing m a v j with
  | zero => omega
  | succ n ih =>
    rw [Memory.writeBytes]
    cases j with
    | zero =>
      rw [Memory.byteAt_writeBytes_outside _ _ (by omega)]
      exact Memory.byteAt_setByte_self hm a _
    | succ j =>
      have e : a + (j + 1) = a + 1 + j := by omega
      rw [e, ih (Memory.wf_setByte hm a _) (a + 1) _ (by omega)]
      ext i hi
      rw [BitVec.getElem_extractLsb', BitVec.getElem_extractLsb', BitVec.getLsbD_ushiftRight]
      congr 1
      omega

theorem Memory.wf_nil : Memory.wf [] := ⟨List.Pairwise.nil, fun _ hc => nomatch hc⟩

/-- The memory of the reset state is canonical. -/
theorem State.reset_mem_wf : Memory.wf State.reset.mem := Memory.wf_nil

end Sys2Proof.Machine
end

