-- ==== Sys2Proof/Laws/Boot.lean ====
section
/-!
SUPPORT. What copying the boot sector does to memory (70_reset_and_hazards.md R281).
-/

namespace Sys2Proof.Machine

/-- A copy of bytes keeps the canonical form, and lists no byte outside an arena that holds the old ones and the copy. -/
theorem Memory.wf_load {m : Memory} {a n : Nat} {bs : List Byte} (hm : Memory.wf m) (hk : ∀ c ∈ m, c.1 < n)
    (hn : a + bs.length ≤ n) : Memory.wf (Memory.load m a bs) ∧ ∀ c ∈ Memory.load m a bs, c.1 < n := by
  induction bs generalizing m a with
  | nil => exact ⟨hm, hk⟩
  | cons b bs ih =>
    rw [List.length_cons] at hn
    refine ih (Memory.wf_setByte hm _ _) (fun c hc => ?_) (by omega)
    rcases Memory.mem_setByte hc with hc | ⟨rfl, -⟩
    · exact hk c hc
    · show a < n
      omega

/-- A copy of bytes leaves every byte outside it alone. -/
theorem Memory.byteAt_load_outside (m : Memory) {a b : Nat} {bs : List Byte} (h : b < a ∨ a + bs.length ≤ b) :
    Memory.byteAt (Memory.load m a bs) b = Memory.byteAt m b := by
  induction bs generalizing m a with
  | nil => rfl
  | cons x bs ih =>
    rw [List.length_cons] at h
    rw [Memory.load, ih _ (by omega), Memory.byteAt_setByte_ne _ _ (by omega)]

/-- A copy of bytes to a canonical memory puts byte `j` at `a + j`. -/
theorem Memory.byteAt_load_inside {m : Memory} (hm : Memory.wf m) (a : Nat) {bs : List Byte} {j : Nat}
    (h : j < bs.length) : Memory.byteAt (Memory.load m a bs) (a + j) = bs[j] := by
  induction bs generalizing m a j with
  | nil => simp at h
  | cons x bs ih =>
    rw [Memory.load]
    cases j with
    | zero =>
      rw [Memory.byteAt_load_outside _ (by omega)]
      exact Memory.byteAt_setByte_self hm _ _
    | succ j =>
      have e : a + (j + 1) = a + 1 + j := by omega
      rw [e, ih (Memory.wf_setByte hm _ _) (a + 1) (by simpa using h)]
      rfl

/-- A copy of zeros to empty memory lists nothing. -/
theorem Memory.load_zeros (a n : Nat) : Memory.load [] a (List.replicate n 0) = [] := by
  induction n generalizing a with
  | zero => rfl
  | succ n ih => exact ih (a + 1)

end Sys2Proof.Machine
end

