-- ==== Sys2Proof/Laws/Fetch.lean ====
section
/-!
SUPPORT. The bytes of a window, and what the next step does with a word placed on the `decoded` port.
-/

namespace Sys2Proof.Machine

theorem Memory.length_bytes (m : Memory) (a n : Nat) : (Memory.bytes m a n).length = n := by
  induction n generalizing a with
  | zero => rfl
  | succ n ih => rw [Memory.bytes, List.length_cons, ih]

theorem Memory.getElem?_bytes {m : Memory} {a n j : Nat} {b : Byte} (h : (Memory.bytes m a n)[j]? = some b) :
    b = Memory.byteAt m (a + j) := by
  induction n generalizing a j with
  | zero => simp [Memory.bytes] at h
  | succ n ih =>
    cases j with
    | zero => simpa [Memory.bytes] using h.symm
    | succ j =>
      rw [Memory.bytes, List.getElem?_cons_succ] at h
      rw [ih h]
      congr 1
      omega

/-- The decoder answers a placed word for the window of the next fetch. -/
theorem consult_placeWord (s : State) (d : Diw) :
    consult (placeWord s d).cfg.decoder (fetchBytes (placeWord s d)) (placeWord s d).mode (fetchAddr (placeWord s d)) =
      some d :=
  if_pos ⟨rfl, rfl, rfl⟩

/-- A placed word is what the next fetch and decode answer. -/
theorem fetchDecode_placeWord {s : State} {d : Diw} (hb : fetchInBounds s = true) :
    fetchDecode (placeWord s d) = acceptWord (fetchAddr s) d := by
  have hp : fetchInBounds (placeWord s d) = true := hb
  rw [fetchDecode, if_pos hp, consult_placeWord]
  rfl

/-- A running block whose fetch stays in memory runs the instruction of a placed word, after the advance of rip. -/
theorem step_placeWord {s : State} {d : Diw} {i : Instr} (hs : s.stopReq = false) (he : s.engine = .fetch)
    (hb : fetchInBounds s = true) (hd : decode d = .ok i) :
    step (placeWord s d) = exec i (advance i.head.len (placeWord s d)) := by
  have hs' : (placeWord s d).stopReq = false := hs
  have he' : (placeWord s d).engine = .fetch := he
  rw [step, hs', he', fetchDecode_placeWord hb, acceptWord, hd]
  rfl

end Sys2Proof.Machine
end

