-- ==== Sys2Proof/Laws/Flags.lean ====
section
/-!
SUPPORT. What the flag operations do to each bit of the flags word.
-/

namespace Sys2Proof.Machine

theorem FlagBit.pos_lt (f : FlagBit) : f.pos < 64 := by cases f <;> decide

/-- Each bit of the word after `FlagSet`. -/
theorem getLsbD_flagSet (f : FlagBit) (b : Bool) (w : Word) (i : Nat) :
    (flagSet f b w).getLsbD i = if i = f.pos then b else w.getLsbD i := by
  have hp := f.pos_lt
  by_cases hi : i = f.pos
  · subst hi
    cases b <;> simp [flagSet, hp]
  · rw [if_neg hi]
    have hone : (1#64 <<< f.pos).getLsbD i = false := by
      rw [BitVec.getLsbD_shiftLeft, BitVec.getLsbD_one]
      by_cases hlt : i < f.pos
      · simp [hlt]
      · have : ¬ i - f.pos = 0 := by omega
        simp [this]
    cases b with
    | true => rw [flagSet, if_pos rfl, BitVec.getLsbD_or, hone, Bool.or_false]
    | false =>
      rw [flagSet, if_neg Bool.false_ne_true, BitVec.getLsbD_and, BitVec.getLsbD_not, hone]
      by_cases h64 : i < 64
      · simp [h64]
      · rw [BitVec.getLsbD_of_ge _ _ (by omega), Bool.false_and]

@[simp] theorem flagGet_flagSet_self (f : FlagBit) (b : Bool) (w : Word) : flagGet f (flagSet f b w) = b := by
  rw [flagGet, getLsbD_flagSet, if_pos rfl]

end Sys2Proof.Machine
end

