-- ==== Sys2Proof/Laws/Interrupt.lean ====
section
/-!
SUPPORT. What the interrupt dispatcher does, said once.
-/

namespace Sys2Proof.Machine

/-- What a teletype scan that answers has done: nothing, or AL stored in a video cell that was zero. -/
theorem teletypeFrom_ok {s t : State} {n k : Nat} (h : teletypeFrom s n k = .ok t) :
    t = s ∨ ∃ j, k ≤ j ∧ j < k + n ∧ memRead s (videoCellAddr s j) s.cfg.videoCell.toNat = .ok 0 ∧
      inBounds s (videoCellAddr s j) 1 ∧
      t = s.setMem (Memory.writeBytes s.mem (videoCellAddr s j).toNat (s.gpr.read (.low8 .rax)) 1) := by
  induction n generalizing k with
  | zero => exact .inl (by simpa [teletypeFrom] using h.symm)
  | succ n ih =>
    rw [teletypeFrom] at h
    obtain ⟨c, hc, h⟩ := res_bind_ok.1 h
    split at h
    · next h0 =>
      obtain ⟨hb, rfl⟩ := memWrite_ok.1 h
      exact .inr ⟨k, Nat.le_refl k, by omega, h0 ▸ hc, hb, rfl⟩
    · rcases ih h with h | ⟨j, h1, h2, h3⟩
      · exact .inl h
      · exact .inr ⟨j, by omega, by omega, h3⟩

/-- What a dispatch that answers has done: nothing, or AL stored in one zero cell of the 2000. -/
theorem dispatch_ok {s t : State} {vec : Byte} (h : dispatch s vec = .ok t) :
    t = s ∨ ∃ j, j < videoCells ∧ memRead s (videoCellAddr s j) s.cfg.videoCell.toNat = .ok 0 ∧
      inBounds s (videoCellAddr s j) 1 ∧
      t = s.setMem (Memory.writeBytes s.mem (videoCellAddr s j).toNat (s.gpr.read (.low8 .rax)) 1) := by
  unfold dispatch at h
  split at h
  · exact .inl (by simpa using h.symm)
  · split at h
    · rcases teletypeFrom_ok h with h | ⟨j, -, h2, h3⟩
      · exact .inl h
      · exact .inr ⟨j, by omega, h3⟩
    · exact .inl (by simpa using h.symm)

end Sys2Proof.Machine
end

