-- ==== Sys2Proof/Laws/Operands.lean ====
section
/-!
SUPPORT. What the operand operations do, said once.
-/

namespace Sys2Proof.Machine

/-- In the segmented modes and in flat Long mode the read address of an operand is its effective address. -/
theorem readAddr_eq_operandAddr {s : State} {h : Head} {disp : Word}
    (hp : s.mode = .long → s.cfg.longMemRead = .flat) : readAddr s h disp = operandAddr s h disp := by
  unfold readAddr
  split
  · next hl => simp [hp hl.1] at hl
  · rfl

/-- The effective address of an operand always exists: the engine never asks the translator in Long mode. -/
theorem operandAddr_total (s : State) (h : Head) (disp : Word) : ∃ a, operandAddr s h disp = .ok a := by
  unfold operandAddr
  cases hm : s.mode <;> simp [translateAddr]

/-- What a write-back that answers has done: nothing, one register, or the bytes at the effective address. -/
theorem writeBack_ok {s t : State} {h : Head} {d : Dest} {v : Word} (hw : writeBack s h d v = .ok t) :
    t = s ∨
    (∃ id w, d = .reg id ∧ RegName.ofId id = .view w ∧ t = s.setGpr (s.gpr.write w v)) ∨
    (∃ id q, d = .reg id ∧ RegName.ofId id = .seg q ∧ t = s.setSeg (s.seg.set q (v.extractLsb' 0 16))) ∨
    (∃ w disp a, d = .mem w disp ∧ s.mode ≠ .long ∧ operandAddr s h disp = .ok a ∧ inBounds s a (storeBytes s w) ∧
      t = s.setMem (Memory.writeBytes s.mem a.toNat v (storeBytes s w))) := by
  cases d with
  | reg id =>
    obtain ⟨w, hid, rfl⟩ | ⟨q, hid, rfl⟩ | ⟨-, -, rfl⟩ := regWrite_ok hw
    · exact .inr (.inl ⟨id, w, rfl, hid, rfl⟩)
    · exact .inr (.inr (.inl ⟨id, q, rfl, hid, rfl⟩))
    · exact .inl rfl
  | mem w disp =>
    unfold writeBack at hw
    simp only at hw
    split at hw
    · exact .inl (by simpa using hw.symm)
    · next hm =>
      obtain ⟨a, ha, hw⟩ := res_bind_ok.1 hw
      obtain ⟨hb, rfl⟩ := memWrite_ok.1 hw
      exact .inr (.inr (.inr ⟨w, disp, a, rfl, hm, ha, hb, rfl⟩))

end Sys2Proof.Machine
end

