-- ==== Sys2Proof/Laws/PerInstr.lean ====
section
/-!
SUPPORT. The header fields of every instruction's canonical word, one lemma per constructor (30_encoding.md R101, R106).
-/

namespace Sys2Proof

/-! ### Fields of a packed word -/

/-- A field of a word is found by the number it stands for: its bits from `lo` up, `n` of them. -/
theorem fieldOf {k : Nat} {h : BitVec k} {lo n : Nat} {v : BitVec n} (e : h.toNat / 2 ^ lo % 2 ^ n = v.toNat) :
    h.extractLsb' lo n = v := by
  apply BitVec.eq_of_toNat_eq
  rw [BitVec.extractLsb'_toNat, Nat.shiftRight_eq_div_pow]
  exact e

/-- The number a packed word is (R101). -/
theorem Diw.pack_toNat (h : BitVec 32) (p0 p1 : Word) :
    (Diw.pack h p0 p1).toNat = h.toNat + 2 ^ 32 * (p0.toNat + 2 ^ 64 * p1.toNat) := by
  have := h.isLt
  have := p0.isLt
  simp only [Diw.pack, BitVec.toNat_append, Nat.shiftLeft_eq]
  repeat rw [Nat.mul_comm _ (2 ^ _), ← Nat.two_pow_add_eq_or_of_lt (by omega)]
  omega

@[simp] theorem Diw.header_pack (h : BitVec 32) (p0 p1 : Word) : Diw.header (Diw.pack h p0 p1) = h := by
  have := h.isLt
  exact fieldOf (by rw [Diw.pack_toNat]; omega)

@[simp] theorem Diw.payload0_pack (h : BitVec 32) (p0 p1 : Word) : Diw.payload0 (Diw.pack h p0 p1) = p0 := by
  have := h.isLt
  have := p0.isLt
  exact fieldOf (by rw [Diw.pack_toNat]; omega)

@[simp] theorem Diw.payload1_pack (h : BitVec 32) (p0 p1 : Word) : Diw.payload1 (Diw.pack h p0 p1) = p1 := by
  have := h.isLt
  have := p0.isLt
  have := p1.isLt
  exact fieldOf (by rw [Diw.pack_toNat]; omega)

/-- The number a header is, field by field (R101). -/
theorem encodeHeader_toNat (h : Head) (mn : BitVec 8) (o0 o1 : Operand) :
    (encodeHeader h mn o0 o1).toNat = mn.toNat + 2 ^ 8 * (h.len.toNat + 2 ^ 4 * ((SegReg.code h.ovr).toNat + 2 ^ 4 *
      (o0.kind.toNat + 2 ^ 2 * (o1.kind.toNat + 2 ^ 2 * (o0.widthCode.toNat + 2 ^ 2 * o1.widthCode.toNat))))) := by
  have := mn.isLt
  have := h.len.isLt
  have := (SegReg.code h.ovr).isLt
  have := o0.kind.isLt
  have := o1.kind.isLt
  have := o0.widthCode.isLt
  have := o1.widthCode.isLt
  simp only [encodeHeader, BitVec.toNat_append, Nat.shiftLeft_eq, BitVec.toNat_ofNat]
  repeat rw [Nat.mul_comm _ (2 ^ _), ← Nat.two_pow_add_eq_or_of_lt (by omega)]
  omega

section
variable (h : Head) (mn : BitVec 8) (o0 o1 : Operand)

theorem encodeHeader_mn : (encodeHeader h mn o0 o1).extractLsb' 0 8 = mn := by
  have := mn.isLt
  exact fieldOf (by rw [encodeHeader_toNat]; omega)

theorem encodeHeader_len : (encodeHeader h mn o0 o1).extractLsb' 8 4 = h.len := by
  have := mn.isLt
  have := h.len.isLt
  exact fieldOf (by rw [encodeHeader_toNat]; omega)

theorem encodeHeader_seg : (encodeHeader h mn o0 o1).extractLsb' 12 3 = SegReg.code h.ovr := by
  have := mn.isLt
  have := h.len.isLt
  have := (SegReg.code h.ovr).isLt
  exact fieldOf (by rw [encodeHeader_toNat]; omega)

theorem encodeHeader_reserved15 : (encodeHeader h mn o0 o1).extractLsb' 15 1 = 0 := by
  have := mn.isLt
  have := h.len.isLt
  have := (SegReg.code h.ovr).isLt
  exact fieldOf (by rw [encodeHeader_toNat]; show _ = 0; omega)

theorem encodeHeader_kind0 : (encodeHeader h mn o0 o1).extractLsb' 16 2 = o0.kind := by
  have := mn.isLt
  have := h.len.isLt
  have := (SegReg.code h.ovr).isLt
  have := o0.kind.isLt
  exact fieldOf (by rw [encodeHeader_toNat]; omega)

theorem encodeHeader_kind1 : (encodeHeader h mn o0 o1).extractLsb' 18 2 = o1.kind := by
  have := mn.isLt
  have := h.len.isLt
  have := (SegReg.code h.ovr).isLt
  have := o0.kind.isLt
  have := o1.kind.isLt
  exact fieldOf (by rw [encodeHeader_toNat]; omega)

theorem encodeHeader_width0 : (encodeHeader h mn o0 o1).extractLsb' 20 2 = o0.widthCode := by
  have := mn.isLt
  have := h.len.isLt
  have := (SegReg.code h.ovr).isLt
  have := o0.kind.isLt
  have := o1.kind.isLt
  have := o0.widthCode.isLt
  exact fieldOf (by rw [encodeHeader_toNat]; omega)

theorem encodeHeader_width1 : (encodeHeader h mn o0 o1).extractLsb' 22 2 = o1.widthCode := by
  have := mn.isLt
  have := h.len.isLt
  have := (SegReg.code h.ovr).isLt
  have := o0.kind.isLt
  have := o1.kind.isLt
  have := o0.widthCode.isLt
  have := o1.widthCode.isLt
  exact fieldOf (by rw [encodeHeader_toNat]; omega)

theorem encodeHeader_reserved24 : (encodeHeader h mn o0 o1).extractLsb' 24 8 = 0 := by
  have := mn.isLt
  have := h.len.isLt
  have := (SegReg.code h.ovr).isLt
  have := o0.kind.isLt
  have := o1.kind.isLt
  have := o0.widthCode.isLt
  have := o1.widthCode.isLt
  exact fieldOf (by rw [encodeHeader_toNat]; show _ = 0; omega)

end

end Sys2Proof

namespace Sys2Proof.Laws.EncodedHeader

/-- The canonical word of an instruction carries its code, its length and its override in the header fields of R101, and
its reserved bits are clear. -/
def Statement (i : Instr) : Prop :=
  Diw.mn (encode i) = i.code ∧ Diw.len (encode i) = i.head.len ∧ Diw.seg (encode i) = SegReg.code i.head.ovr ∧
  Diw.reserved15 (encode i) = 0 ∧ Diw.reserved24 (encode i) = 0

theorem every (i : Instr) : Statement i := by
  simp only [Statement, Diw.mn, Diw.len, Diw.seg, Diw.reserved15, Diw.reserved24, encode, Diw.header_pack]
  exact ⟨encodeHeader_mn .., encodeHeader_len .., encodeHeader_seg .., encodeHeader_reserved15 ..,
    encodeHeader_reserved24 ..⟩

theorem mov (h : Head) (d : Dest) (r : Source) : Statement (.mov h d r) := every _
theorem add (h : Head) (d : Dest) (r : Source) : Statement (.add h d r) := every _
theorem sub (h : Head) (d : Dest) (r : Source) : Statement (.sub h d r) := every _
theorem and (h : Head) (d : Dest) (r : Source) : Statement (.and h d r) := every _
theorem or (h : Head) (d : Dest) (r : Source) : Statement (.or h d r) := every _
theorem cmp (h : Head) (d : Dest) (r : Source) : Statement (.cmp h d r) := every _
theorem jmp (h : Head) (t : Source) : Statement (.jmp h t) := every _
theorem je (h : Head) (t : Imm) : Statement (.je h t) := every _
theorem jne (h : Head) (t : Imm) : Statement (.jne h t) := every _
theorem cli (h : Head) : Statement (.cli h) := every _
theorem int (h : Head) (vec : Byte) : Statement (.int h vec) := every _
theorem lgdt (h : Head) (w : OpWidth) (disp : Word) : Statement (.lgdt h w disp) := every _
theorem hlt (h : Head) : Statement (.hlt h) := every _
theorem unrec00 (h : Head) : Statement (.unrec00 h) := every _
theorem unrec0E (h : Head) (lo : BitVec 1) : Statement (.unrec0E h lo) := every _
theorem unrec10 (h : Head) (lo : BitVec 4) : Statement (.unrec10 h lo) := every _
theorem unrec20 (h : Head) (lo : BitVec 5) : Statement (.unrec20 h lo) := every _
theorem unrec40 (h : Head) (lo : BitVec 6) : Statement (.unrec40 h lo) := every _
theorem unrec80 (h : Head) (lo : BitVec 7) : Statement (.unrec80 h lo) := every _

end Sys2Proof.Laws.EncodedHeader
end

