-- ==== Sys2Proof/Laws/Registers.lean ====
section
/-!
SUPPORT. The bits of a cell after a write of each width, and the bits a view reads (40_block_primitives.md R130 to R135).
-/

namespace Sys2Proof.Machine

/-- Bits of `old` above `k` over the low `k` bits of `x`. -/
theorem getLsbD_lowReplaced {k n : Nat} (hkn : n + k = 64) (old x : Word) (i : Nat) :
    (old.extractLsb' k n ++ x.extractLsb' 0 k).getLsbD i = if i < k then x.getLsbD i else old.getLsbD i := by
  rw [BitVec.getLsbD_append, BitVec.getLsbD_extractLsb', BitVec.getLsbD_extractLsb']
  by_cases h : i < k
  · simp [h]
  · by_cases h64 : i < 64
    · have : i - k < n := by omega
      have : k + (i - k) = i := by omega
      simp [*]
    · have : ¬ i - k < n := by omega
      simp [*, BitVec.getLsbD_of_ge old i (by omega)]

theorem getLsbD_merge_low8 (r : Gpr) (old x : Word) (i : Nat) :
    ((View.low8 r).merge old x).getLsbD i = if i < 8 then x.getLsbD i else old.getLsbD i :=
  getLsbD_lowReplaced (k := 8) (n := 56) rfl old x i

theorem getLsbD_merge_bits16 (r : Gpr) (old x : Word) (i : Nat) :
    ((View.bits16 r).merge old x).getLsbD i = if i < 16 then x.getLsbD i else old.getLsbD i :=
  getLsbD_lowReplaced (k := 16) (n := 48) rfl old x i

theorem getLsbD_merge_bits32 (r : Gpr) (old x : Word) (i : Nat) :
    ((View.bits32 r).merge old x).getLsbD i = if i < 32 then x.getLsbD i else false := by
  show ((x.extractLsb' 0 32).setWidth 64).getLsbD i = _
  rw [BitVec.getLsbD_setWidth, BitVec.getLsbD_extractLsb']
  by_cases h : i < 32
  · have : i < 64 := by omega
    simp [*]
  · simp [h]

theorem getLsbD_merge_high8 (r : HighGpr) (old x : Word) (i : Nat) :
    ((View.high8 r).merge old x).getLsbD i = if 8 ≤ i ∧ i < 16 then x.getLsbD (i - 8) else old.getLsbD i := by
  show (old.extractLsb' 16 48 ++ x.extractLsb' 0 8 ++ old.extractLsb' 0 8 : BitVec (48 + 8 + 8)).getLsbD i = _
  rw [BitVec.getLsbD_append, BitVec.getLsbD_append]
  simp only [BitVec.getLsbD_extractLsb']
  by_cases h : i < 8
  · have : ¬ (8 ≤ i ∧ i < 16) := by omega
    simp [*]
  · by_cases h16 : i < 16
    · have : i - 8 < 8 := by omega
      have : 8 ≤ i ∧ i < 16 := by omega
      simp [*]
    · have : ¬ i - 8 < 8 := by omega
      have : ¬ (8 ≤ i ∧ i < 16) := by omega
      have : 16 + (i - 8 - 8) = i := by omega
      by_cases h64 : i < 64
      · have : i - 8 - 8 < 48 := by omega
        simp [*]
      · have : ¬ i - 8 - 8 < 48 := by omega
        simp [*, BitVec.getLsbD_of_ge old i (by omega)]

theorem View.width_le (v : View) : v.width ≤ 64 := by cases v <;> simp [View.width]

/-- Each bit of the value a view reads. -/
theorem Gprs.getLsbD_read (g : Gprs) (v : View) (i : Nat) :
    (g.read v).getLsbD i = if i < v.width then (g.get v.cell).getLsbD (v.lo + i) else false := by
  rw [Gprs.read, BitVec.getLsbD_setWidth, BitVec.getLsbD_extractLsb']
  by_cases h : i < v.width
  · have := v.width_le
    have : i < 64 := by omega
    simp [*]
  · simp [h]

/-- The cells are equal when each of them is. -/
theorem Gprs.ext_get {g k : Gprs} (h : ∀ r, g.get r = k.get r) : g = k := by
  have h0 := h .rax
  have h1 := h .rcx
  have h2 := h .rdx
  have h3 := h .rbx
  have h4 := h .rsp
  have h5 := h .rbp
  have h6 := h .rsi
  have h7 := h .rdi
  cases g
  cases k
  simp only [Gprs.get] at h0 h1 h2 h3 h4 h5 h6 h7
  simp only [h0, h1, h2, h3, h4, h5, h6, h7]

end Sys2Proof.Machine
end

