-- ==== Sys2Proof/Laws/Step.lean ====
section
/-!
SUPPORT. Everything an instruction and a step can do to the state, said once: the invariants follow by cases on it.
-/

namespace Sys2Proof.Machine

/-- The effects an Execute phase can have on a state. -/
inductive Effect (s : State) : State → Prop where
  | same : Effect s s
  | gpr (v : View) (x : Word) : Effect s (s.setGpr (s.gpr.write v x))
  | seg (q : SegReg) (x : BitVec 16) : Effect s (s.setSeg (s.seg.set q x))
  | mem (a v : Word) (n : Nat) (h : inBounds s a n) : Effect s (s.setMem (Memory.writeBytes s.mem a.toNat v n))
  | compared (a b : Word) : Effect s (s.setFlags (compareFlags s.cfg.cmpGt s.flags a b))
  | cli : Effect s (s.setFlags (flagSet .interrupt false s.flags))
  | jump (w : Word) : Effect s (s.setRip w)
  | raised (k : ErrorKind) : Effect s (s.setEngine (.faulted k))
  | halted : Effect s (s.setEngine .halted)
  | logged (e : LogEvent) : Effect s (s.emit e)

theorem effect_of_writeBack {s t : State} {h : Head} {d : Dest} {v : Word} (hw : writeBack s h d v = .ok t) :
    Effect s t := by
  obtain rfl | ⟨_, w, _, _, rfl⟩ | ⟨_, q, _, _, rfl⟩ | ⟨_, _, a, _, _, _, hb, rfl⟩ := writeBack_ok hw
  · exact .same
  · exact .gpr w v
  · exact .seg q _
  · exact .mem a v _ hb

/-- An Execute phase whose results are all effects has only effects, its faults among them. -/
theorem effect_of_finish {s t : State} {r : Res State} (h : finish s r = .next t)
    (hr : ∀ u, r = .ok u → Effect s u) : Effect s t := by
  obtain hr' | ⟨k, -, rfl⟩ := finish_next.1 h
  · exact hr t hr'
  · exact .raised k

theorem effect_of_alu {op : Word → Word → Word} {h : Head} {d : Dest} {r : Source} {s t : State}
    (ha : alu op h d r s = .next t) : Effect s t :=
  effect_of_finish ha fun u hu => by
    obtain ⟨a, -, hu⟩ := res_bind_ok.1 hu
    obtain ⟨b, -, hu⟩ := res_bind_ok.1 hu
    exact effect_of_writeBack hu

/-- What an instruction that answers a next state has done. -/
theorem exec_effect {i : Instr} {s t : State} (h : exec i s = .next t) : Effect s t := by
  cases i with
  | mov hd d r =>
    exact effect_of_finish h fun u hu => by
      obtain ⟨v, -, hu⟩ := res_bind_ok.1 hu
      exact effect_of_writeBack hu
  | add hd d r => exact effect_of_alu h
  | sub hd d r => exact effect_of_alu h
  | and hd d r => exact effect_of_alu h
  | or hd d r => exact effect_of_alu h
  | cmp hd d r =>
    exact effect_of_finish h fun u hu => by
      obtain ⟨a, -, hu⟩ := res_bind_ok.1 hu
      obtain ⟨b, -, hu⟩ := res_bind_ok.1 hu
      cases hu
      exact .compared a b
  | jmp hd t' =>
    exact effect_of_finish h fun u hu => by
      obtain ⟨v, -, hu⟩ := res_bind_ok.1 hu
      cases hu
      exact .jump v
  | je hd t' =>
    simp only [exec, execJe] at h
    split at h <;> cases h
    · exact .jump _
    · exact .same
  | jne hd t' =>
    simp only [exec, execJne] at h
    split at h <;> cases h
    · exact .same
    · exact .jump _
  | cli hd => cases h; exact .cli
  | int hd vec =>
    exact effect_of_finish h fun u hu => by
      obtain rfl | ⟨j, -, -, hb, rfl⟩ := dispatch_ok hu
      · exact .same
      · exact .mem _ _ 1 hb
  | lgdt hd w disp =>
    exact effect_of_finish h fun u hu => by
      obtain ⟨a, -, hu⟩ := res_bind_ok.1 hu
      obtain ⟨l, -, hu⟩ := res_bind_ok.1 hu
      obtain ⟨b, -, hu⟩ := res_bind_ok.1 hu
      cases hu
      exact .logged _
  | hlt hd => cases h; exact .halted
  | unrec00 hd => cases h; exact .logged _
  | unrec0E hd lo => cases h; exact .logged _
  | unrec10 hd lo => cases h; exact .logged _
  | unrec20 hd lo => cases h; exact .logged _
  | unrec40 hd lo => cases h; exact .logged _
  | unrec80 hd lo => cases h; exact .logged _

/-- What a step that answers a next state has done: nothing, an error raised by Fetch or Decode, or an instruction run
after the advance. -/
theorem step_cases {s t : State} (h : step s = .next t) :
    t = s ∨ (∃ k, t = s.setEngine (.faulted k)) ∨
    ∃ i, fetchDecode s = .instr i ∧ exec i (advance i.head.len s) = .next t := by
  unfold step at h
  split at h
  · exact .inl (by simpa using h.symm)
  · split at h
    · exact .inl (by simpa using h.symm)
    · exact .inl (by simpa using h.symm)
    · split at h
      · next i hi => exact .inr (.inr ⟨i, hi, h⟩)
      · next k hk => exact .inr (.inl ⟨k, by simpa [raise] using h.symm⟩)
      · cases h

end Sys2Proof.Machine
end

