-- ==== Sys2Proof/Tests/Slice0.lean ====
section
/-!
SUPPORT. Tests with the expected results of spec/95_test_vectors.md and the rules (each names its row), and the witnesses
that the hypotheses of the statements can be met.
-/

namespace Sys2Proof.Tests

open Sys2Proof Sys2Proof.Machine

/-! ### Helpers -/

/-- One field of a next state. -/
def seen {α : Type} (f : State → α) : Outcome → Option α
  | .next t    => some (f t)
  | .fault _   => none
  | .refused _ => none

/-- The step that receives the word `H / P0 / P1`. -/
def ran (s : State) (h : BitVec 32) (p0 p1 : Word) : Outcome := step (placeWord s (Diw.pack h p0 p1))

/-- The reset state in another mode. -/
def inMode (m : Mode) : State := { State.reset with mode := m }

/-- A state with RAX replaced. -/
def withRax (v : Word) (s : State) : State := { s with gpr := { s.gpr with rax := v } }

/-- A state with RBX replaced. -/
def withRbx (v : Word) (s : State) : State := { s with gpr := { s.gpr with rbx := v } }

/-- A state with DS replaced. -/
def withDs (v : BitVec 16) (s : State) : State := { s with seg := { s.seg with ds := v } }

/-- A state with bytes put in memory. -/
def poke (a : Nat) (bs : List Byte) (s : State) : State := { s with mem := Memory.load s.mem a bs }

/-- RAX after a step. -/
def raxAfter : Outcome → Option Word := seen fun t => t.gpr.rax

/-- Bytes of memory after a step. -/
def bytesAfter (a n : Nat) : Outcome → Option (List Byte) := seen fun t => Memory.bytes t.mem a n

/-- A view written in the cells, from the state of 95 section 2.1. -/
def rf (v : View) (x : Word) : Word := ((⟨0x1122334455667788, 0, 0, 0, 0, 0, 0, 0⟩ : Gprs).write v x).rax

/-! ### Well-formedness: one ill-formed term a check -/

theorem test_wf_zero_length : (Instr.cli ⟨0, none⟩).wf = false := by decide
theorem test_wf_wide_source : (Instr.mov ⟨1, none⟩ (.reg 0) (.imm ⟨.w8, 0x100⟩)).wf = false := by decide
theorem test_wf_wide_target : (Instr.je ⟨1, none⟩ ⟨.w16, 0x10000⟩).wf = false := by decide
theorem test_wf_video_outside : ¬ Config.Wf { Config.reference with videoBase := 0x63FF831 } := by decide
theorem test_wf_video_at_end : Config.Wf { Config.reference with videoBase := 0x63FF830 } := by decide
theorem test_wf_memory_too_large : ¬ Config.Wf { Config.reference with memSize := 2 ^ 64 + 1 } := by decide
theorem test_wf_accepts : (Instr.mov ⟨15, none⟩ (.reg 0) (.imm ⟨.w8, 0xFF⟩)).wf = true := by decide

/-! ### Decoding: words written out from R101 to R106 -/

/-- Mov, header bit by bit: reserved, W1=1, W0=1, K1=3, K0=1, reserved, SEG=0, LEN=3, MN=1 (95 A1). -/
theorem test_decode_mov :
    decode (Diw.pack (0x00#8 ++ 0b01#2 ++ 0b01#2 ++ 0b11#2 ++ 0b01#2 ++ 0b0#1 ++ 0b000#3 ++ 0x3#4 ++ 0x01#8) 0x20 0x1234) =
      .ok (.mov ⟨3, none⟩ (.reg 0x20) (.imm ⟨.w16, 0x1234⟩)) := by decide
/-- A5: Add AL, 0x01:8. -/
theorem test_decode_add :
    decode (Diw.pack 0x000D0202 0x00 0x01) = .ok (.add ⟨2, none⟩ (.reg 0x00) (.imm ⟨.w8, 1⟩)) := by decide
/-- A10: Sub BX, BX. -/
theorem test_decode_sub : decode (Diw.pack 0x00550203 0x23 0x23) = .ok (.sub ⟨2, none⟩ (.reg 0x23) (.reg 0x23)) := by
  decide
/-- A11: And BX, 0x0FF0:16. -/
theorem test_decode_and :
    decode (Diw.pack 0x005D0404 0x23 0xFF0) = .ok (.and ⟨4, none⟩ (.reg 0x23) (.imm ⟨.w16, 0xFF0⟩)) := by decide
/-- A12: Or BX, 0x00FF:16. -/
theorem test_decode_or :
    decode (Diw.pack 0x005D0405 0x23 0xFF) = .ok (.or ⟨4, none⟩ (.reg 0x23) (.imm ⟨.w16, 0xFF⟩)) := by decide
/-- P6: Cmp ECX, dword [0x34]. -/
theorem test_decode_cmp :
    decode (Diw.pack 0x00A90606 0x31 0x34) = .ok (.cmp ⟨6, none⟩ (.reg 0x31) (.mem .w32 0x34)) := by decide
/-- Jmp, header bit by bit: W0=1, K1=0, K0=3, LEN=2, MN=7 (R113, 95 C1). -/
theorem test_decode_jmp :
    decode (Diw.pack (0x00#8 ++ 0b00#2 ++ 0b01#2 ++ 0b00#2 ++ 0b11#2 ++ 0b0#1 ++ 0b000#3 ++ 0x2#4 ++ 0x07#8) 0x7C00 0) =
      .ok (.jmp ⟨2, none⟩ (.imm ⟨.w16, 0x7C00⟩)) := by decide
/-- C4. -/
theorem test_decode_je : decode (Diw.pack 0x00130208 0x7C20 0) = .ok (.je ⟨2, none⟩ ⟨.w16, 0x7C20⟩) := by decide
/-- C6. -/
theorem test_decode_jne : decode (Diw.pack 0x00130209 0x7C06 0) = .ok (.jne ⟨2, none⟩ ⟨.w16, 0x7C06⟩) := by decide
/-- Y1. -/
theorem test_decode_cli : decode (Diw.pack 0x0000010A 0 0) = .ok (.cli ⟨1, none⟩) := by decide
/-- Int, header bit by bit: W0=0, K1=0, K0=3, LEN=2, MN=0x0B (95 Y3). -/
theorem test_decode_int :
    decode (Diw.pack (0x00#8 ++ 0b00#2 ++ 0b00#2 ++ 0b00#2 ++ 0b11#2 ++ 0b0#1 ++ 0b000#3 ++ 0x2#4 ++ 0x0B#8) 0x10 0) =
      .ok (.int ⟨2, none⟩ 0x10) := by decide
/-- Y10. -/
theorem test_decode_lgdt : decode (Diw.pack 0x0012050C 0x7E00 0) = .ok (.lgdt ⟨5, none⟩ .w16 0x7E00) := by decide
/-- C8. -/
theorem test_decode_hlt : decode (Diw.pack 0x0000010D 0 0) = .ok (.hlt ⟨1, none⟩) := by decide
/-- R106: the six rows of unrecognized codes, at the ends of their ranges (0x50 is Y11). -/
theorem test_decode_unrec00 : decode (Diw.pack 0x00000100 0 0) = .ok (.unrec00 ⟨1, none⟩) := by decide
theorem test_decode_unrec0E : decode (Diw.pack 0x0000010F 0 0) = .ok (.unrec0E ⟨1, none⟩ 1) := by decide
theorem test_decode_unrec10 : decode (Diw.pack 0x0000011F 0 0) = .ok (.unrec10 ⟨1, none⟩ 0xF) := by decide
theorem test_decode_unrec20 : decode (Diw.pack 0x00000120 0 0) = .ok (.unrec20 ⟨1, none⟩ 0) := by decide
theorem test_decode_unrec40 : decode (Diw.pack 0x00000150 0 0) = .ok (.unrec40 ⟨1, none⟩ 0x10) := by decide
theorem test_decode_unrec80 : decode (Diw.pack 0x000001FF 0 0) = .ok (.unrec80 ⟨1, none⟩ 0x7F) := by decide
/-- EA2: an override. -/
theorem test_decode_override :
    decode (Diw.pack 0x00591401 0x20 0x20) = .ok (.mov ⟨4, some .es⟩ (.reg 0x20) (.mem .w16 0x20)) := by decide
/-- 95 section 2.9: the malformed words, then the nearest accepted ones. -/
theorem test_decode_malformed :
    decode (Diw.pack 0x00000001 0 0) = .malformed ∧ decode (Diw.pack 0x00008101 0 0) = .malformed ∧
    decode (Diw.pack 0x01000101 0 0) = .malformed ∧ decode (Diw.pack 0x00007101 0 0) = .malformed ∧
    decode (Diw.pack 0x000D0201 0 0x100) = .malformed := by decide
theorem test_decode_shape_refused : decode (Diw.pack 0x00000101 0 0) = .notAdmitted "Mov" := by decide
/-- 95 P3: the encoder writes the spec's words. -/
theorem test_encode_words :
    encode (.jne ⟨2, none⟩ ⟨.w16, 0x7C06⟩) = Diw.pack 0x00130209 0x7C06 0 ∧
    encode (.cmp ⟨3, none⟩ (.reg 0x20) (.imm ⟨.w16, 0⟩)) = Diw.pack 0x005D0306 0x20 0 ∧
    encode (.mov ⟨4, some .es⟩ (.reg 0x20) (.mem .w16 0x20)) = Diw.pack 0x00591401 0x20 0x20 := by decide
/-- The table's numbering: the header alone, payloads zero. -/
theorem test_decodeTableWord : decodeTableWord 32 0x0000010D = some (.hlt ⟨1, none⟩) := by decide
/-- A row's pattern with its free bits zero has `LEN` = 0: malformed (R110). -/
theorem test_decodeTableWord_no_length : decodeTableWord 32 0x0000000D = none := by decide

/-! ### Register file (95 section 2.1) -/

theorem test_rf2_low8 : rf (.low8 .rax) 0x12 = 0x1122334455667712 := by decide
theorem test_rf4_high8 : rf (.high8 .rax) 0x34 = 0x1122334455663488 := by decide
theorem test_rf7_bits32 : rf (.bits32 .rax) 0xFFFFFFFF12345678 = 0x12345678 := by decide
theorem test_rf10_bits16 : rf (.bits16 .rax) 0x12345 = 0x1122334455662345 := by decide
theorem test_rf8_bits64 : rf (.bits64 .rax) 0xFFFFFFFFFFFFFFFF = 0xFFFFFFFFFFFFFFFF := by decide
theorem test_rf1_high8_read :
    (⟨0x1122334455667788, 0, 0, 0, 0, 0, 0, 0⟩ : Gprs).read (.high8 .rax) = 0x77 := by decide
theorem test_rf_ids :
    RegName.ofId 0x10 = .view (.high8 .rax) ∧ RegName.ofId 0x23 = .view (.bits16 .rbx) ∧
    RegName.ofId 0x24 = .view (.bits16 .rsp) ∧ RegName.ofId 0x53 = .seg .ds := by decide
theorem test_rf_unmapped :
    ∀ id ∈ [0x08#8, 0x0F#8, 0x14#8, 0x17#8, 0x28#8, 0x48#8, 0x56#8, 0x57#8, 0x60#8, 0xFF#8],
      RegName.ofId id = .unmapped := by decide

/-! ### Flags (95 section 2.2) -/

theorem test_fl_positions :
    flagSet .carry true 0 = 0x0001 ∧ flagSet .parity true 0 = 0x0004 ∧ flagSet .adjust true 0 = 0x0010 ∧
    flagSet .zero true 0 = 0x0040 ∧ flagSet .sign true 0 = 0x0080 ∧ flagSet .trap true 0 = 0x0100 ∧
    flagSet .interrupt true 0 = 0x0200 ∧ flagSet .direction true 0 = 0x0400 ∧
    flagSet .overflow true 0 = 0x0800 := by decide
theorem test_fl10_iopl : ioplSet 3 0 = 0x3000 := by decide
theorem test_fl11_clear : flagSet .zero false 0x3FD5 = 0x3F95 := by decide
theorem test_fl13_equal : compareFlags .clearBoth 0x0A84 7 7 = 0x0AC4 := by decide
theorem test_fl15_greater :
    compareFlags .clearBoth 0x0AC5 8 7 = 0x0A84 ∧ compareFlags .unchanged 0x0AC5 8 7 = 0x0AC5 := by decide
theorem test_fl16_unsigned : compareFlags .clearBoth 0 0 0xFFFFFFFFFFFFFFFF = 0x0001 := by decide

/-! ### Translator, effective address, memory (95 sections 2.3, 2.4) -/

theorem test_tr4_no_wrap : translateAddr .real 0xFFFF 0xFFFF = .ok 0x10FFEF := by decide
theorem test_tr7_protected : translateAddr .prot 0xFFFF 0xFFFFFFFF = .ok 0x10000FFFE := by decide
theorem test_tr3_long : translateAddr .long 0 0 = .error (.raise (.unsupportedTranslation 0 0)) := by decide
theorem test_ea3_low32 : operandAddr State.reset ⟨1, none⟩ 0xFFFFFFFF00000010 = .ok 0x10 := by decide
theorem test_ea5_long_flat : operandAddr (withDs 0x1000 (inMode .long)) ⟨1, some .es⟩ 0x2000 = .ok 0x2000 := by decide
theorem test_m3_misaligned :
    Memory.bytes (Memory.writeBytes [] 0x1001 0x0102030405060708 8) 0x1001 8 = [8, 7, 6, 5, 4, 3, 2, 1] := by decide
theorem test_m2_read : memRead (poke 0x1000 [0x44, 0x33, 0x22, 0x11] State.reset) 0x1001 2 = .ok 0x2233 := by decide
theorem test_m4_m5_last :
    memRead State.reset 0x63FFFFF 1 = .ok 0 ∧
    memRead State.reset 0x63FFFFF 2 = .error (.raise (.outOfBounds 0x63FFFFF 2)) := by decide
theorem test_m7_no_wrap :
    memRead State.reset 0xFFFFFFFFFFFFFFFF 2 = .error (.raise (.outOfBounds 0xFFFFFFFFFFFFFFFF 2)) := by decide
theorem test_mem_canonical : Memory.writeBytes [(0x10, 5), (0x11, 6)] 0x10 0 1 = [(0x11, 6)] := by decide

/-! ### Engine cycle (95 section 2.5) -/

theorem test_en1_advance : seen (·.rip) (ran State.reset 0x005D0301 0x20 0x1234) = some 0x7C03 := by decide
theorem test_en2_wrap :
    fetchAddr { State.reset with rip := 0x10000 } = 0 ∧
    seen (·.rip) (ran { State.reset with rip := 0x10000 } 0x00000250 0 0) = some 0x10002 := by decide
theorem test_en3_fetch_outside :
    step { inMode .long with rip := 0x63FFFF2 } =
      .next { inMode .long with rip := 0x63FFFF2, engine := .faulted (.outOfBounds 0x63FFFF2 15) } := by rfl
theorem test_en4_fetch_at_end : fetchInBounds { inMode .long with rip := 0x63FFFF1 } = true := by decide
theorem test_en5_decode_failure :
    step State.reset = .next { State.reset with engine := .faulted (.decodeFailure 0x7C00) } := by rfl
theorem test_en6_load :
    raxAfter (ran (withRax 0xFFFFFFFFFFFFFFFF (poke 0x500 [0xCD, 0xAB] State.reset)) 0x00090401 0x00 0x500) =
      some 0xFFFFFFFFFFFFFFCD := by decide
theorem test_en7_store :
    bytesAfter 0x500 3 (ran (withRax 0x5A (poke 0x500 [0xFF, 0xFF, 0xFF] State.reset)) 0x00060401 0x500 0x00) =
      some [0x5A, 0x00, 0xFF] := by decide
theorem test_en8_store_protected :
    bytesAfter 0x500 4 (ran (withRax 0x1234 (poke 0x500 [0xFF, 0xFF, 0xFF, 0xFF] (inMode .prot))) 0x00560501 0x500 0x20) =
      some [0x34, 0x12, 0, 0] := by decide
theorem test_en10_long_store :
    seen (fun t => (t.mem, t.engine, t.rip)) (ran (withRax 5 (inMode .long)) 0x00F60A01 0xFFFFFFFFFFFFFFF0 0x40) =
      some ([], .fetch, 0x7C0A) := by decide
theorem test_en11_long_load :
    seen (fun t => (t.engine, t.rip)) (ran (inMode .long) 0x00F90801 0x40 0xFFFFFFFFFFFFFFF0) =
      some (.faulted (.outOfBounds 0xFFFFFFFFFFFFFFF0 8), 0x7C08) := by decide
theorem test_en12_long_add :
    bytesAfter 0x500 2 (ran (withRbx 2 (poke 0x500 [1] (inMode .long))) 0x00F60802 0x500 0x43) = some [1, 0] := by decide
theorem test_en13_outside :
    seen (·.engine) (ran (withDs 0xFFFF State.reset) 0x00590401 0x20 0xFFFFFFFF) =
      some (.faulted (.outOfBounds 0x1000FFFEF 2)) := by decide
theorem test_en14_unmapped_read : raxAfter (ran (withRax 7 State.reset) 0x00550201 0x20 0x28) = some 0 := by decide

/-! ### Data movement and arithmetic (95 section 2.6) -/

theorem test_a1_mov : raxAfter (ran (withRax 0xFFFFFFFFFFFFFFFF State.reset) 0x005D0301 0x20 0x1234) =
    some 0xFFFFFFFFFFFF1234 := by decide
theorem test_a20_mov_segment :
    seen (fun t => t.seg.ds) (ran (withRax 0x1000 State.reset) 0x00550201 0x53 0x20) = some 0x1000 := by decide
theorem test_a5_add :
    seen (fun t => (t.gpr.rax, t.flags)) (ran { withRax 0x12FF State.reset with flags := 0x0A85 } 0x000D0202 0x00 0x01) =
      some (0x1200, 0x0A85) := by decide
theorem test_a7_add32 :
    raxAfter (ran (withRax 0x1FFFFFFFF State.reset) 0x00AD0502 0x30 0x1) = some 0 := by decide
theorem test_a8_sub : raxAfter (ran (withRax 0xABC0000 State.reset) 0x005D0303 0x20 0x1) = some 0xABCFFFF := by decide
theorem test_a9_sub32 : raxAfter (ran State.reset 0x00AD0503 0x30 0x1) = some 0x00000000FFFFFFFF := by decide
theorem test_a11_and :
    seen (fun t => t.gpr.rbx) (ran (withRbx 0x12FF State.reset) 0x005D0404 0x23 0xFF0) = some 0x02F0 := by decide
theorem test_a12_or :
    seen (fun t => t.gpr.rbx) (ran (withRbx 0x1234 State.reset) 0x005D0405 0x23 0xFF) = some 0x12FF := by decide
theorem test_a14_cmp_greater :
    seen (·.flags) (ran { withRax 2 State.reset with flags := 0x0A85 } 0x005D0306 0x20 0) = some 0x0A84 := by decide
theorem test_a16_cmp_less :
    seen (·.flags) (ran { withRax 1 (withRbx 2 State.reset) with flags := 0x0A84 } 0x00550206 0x20 0x23) =
      some 0x0A85 := by decide
/-- P6: Add to memory. -/
theorem test_p6_add_memory :
    bytesAfter 0x2034 4 (ran (withDs 0x2000 (poke 0x2034 [0xBE, 0xBA, 0xFE, 0xCA] (inMode .prot))) 0x00AE0A02 0x34 0x42) =
      some [0x00, 0xBB, 0xFE, 0xCA] := by decide

/-! ### Control transfer (95 section 2.7) -/

theorem test_c2_jmp_register :
    seen (·.rip) (ran (withRax 0x1122334455667C10 State.reset) 0x00110207 0x20 0) = some 0x7C10 := by decide
theorem test_c3_jmp_memory :
    seen (·.rip) (ran (poke 0x600 [0x20, 0x7C, 0xFF] State.reset) 0x00120407 0x600 0) = some 0x7C20 := by decide
theorem test_c4_je_taken :
    seen (·.rip) (ran { State.reset with rip := 0x7C10, flags := 0x0240 } 0x00130208 0x7C20 0) = some 0x7C20 := by decide
theorem test_c5_je_not_taken :
    seen (·.rip) (ran { State.reset with rip := 0x7C10, flags := 0x0200 } 0x00130208 0x7C20 0) = some 0x7C12 := by decide
theorem test_c6_jne_taken :
    seen (·.rip) (ran { State.reset with rip := 0x7C10, flags := 0x0200 } 0x00130209 0x7C06 0) = some 0x7C06 := by decide
theorem test_c7_jne_not_taken :
    seen (·.rip) (ran { State.reset with rip := 0x7C10, flags := 0x0240 } 0x00130209 0x7C06 0) = some 0x7C12 := by decide
theorem test_c8_hlt :
    seen (fun t => (t.engine, t.rip)) (ran { State.reset with rip := 0x7C12 } 0x0000010D 0 0) = some (.halted, 0x7C13) := by
  decide

/-! ### System (95 section 2.8) -/

/-- The start of Y3: IF set, AX = 0x0E41. -/
def ttyState : State := { withRax 0x0E41 State.reset with flags := 0x0200 }

theorem test_y1_cli : seen (·.flags) (ran { State.reset with flags := 0x0241 } 0x0000010A 0 0) = some 0x0041 := by decide
theorem test_y3_int : seen (·.mem) (ran ttyState 0x0003020B 0x10 0) = some [(0xB8000, 0x41)] := by decide
theorem test_y4_int_masked : seen (·.mem) (ran { ttyState with flags := 0 } 0x0003020B 0x10 0) = some [] := by decide
theorem test_y5_next_cell :
    bytesAfter 0xB8000 4 (ran (poke 0xB8000 [0x48, 0x49] ttyState) 0x0003020B 0x10 0) = some [0x48, 0x49, 0x41, 0] := by
  decide
theorem test_y6_y7_no_service :
    seen (·.mem) (ran (withRax 0x0F41 ttyState) 0x0003020B 0x10 0) = some [] ∧
    seen (·.mem) (ran ttyState 0x0003020B 0x13 0) = some [] := by decide
theorem test_y9_two_byte_cells :
    bytesAfter 0xB8000 4
      (ran (poke 0xB8000 [0x00, 0x07] { ttyState with cfg := { Config.reference with videoCell := .two } }) 0x0003020B 0x10 0) =
      some [0x00, 0x07, 0x41, 0x00] := by decide
theorem test_y10_lgdt :
    seen (·.log) (ran (poke 0x7E00 [0x17, 0, 0, 0x80, 0, 0] State.reset) 0x0012050C 0x7E00 0) =
      some [.lgdt 0x0017 0x00008000] := by decide
theorem test_y11_unrecognized :
    seen (fun t => (t.log, t.rip)) (ran State.reset 0x00000150 0 0) = some ([.unrecognized 0x50], 0x7C01) := by decide
theorem test_unrecognized_codes :
    seen (·.log) (ran State.reset 0x00000100 0 0) = some [.unrecognized 0x00] ∧
    seen (·.log) (ran State.reset 0x0000010F 0 0) = some [.unrecognized 0x0F] ∧
    seen (·.log) (ran State.reset 0x0000011F 0 0) = some [.unrecognized 0x1F] ∧
    seen (·.log) (ran State.reset 0x0000013F 0 0) = some [.unrecognized 0x3F] ∧
    seen (·.log) (ran State.reset 0x000001FF 0 0) = some [.unrecognized 0xFF] := by decide

/-- A table of three slots (Y12, Y13). -/
def threeSlots : State := { State.reset with gdt := [⟨0, 1, 2⟩, ⟨3, 4, 5⟩, ⟨6, 7, 8⟩] }

theorem test_y12_loadSegment : (loadSegment threeSlots .ds 0x0013).desc.ds = ⟨0x0013, 6, 7, 8⟩ := by decide
theorem test_y13_loadSegment_past_end : loadSegment threeSlots .ds 0x0018 = threeSlots := by decide

/-! ### Steps that are no instruction -/

/-- R240: the codes of the four error kinds. -/
theorem test_error_codes :
    (ErrorKind.decodeFailure 0).code = 1 ∧ ErrorKind.storageFailure.code = 2 ∧ (ErrorKind.outOfBounds 0 1).code = 3 ∧
    (ErrorKind.unsupportedTranslation 0 0).code = 4 := by decide

theorem test_shape_refused : ran State.reset 0x00000101 0 0 = .refused (.shapeNotAdmitted "Mov") := by rfl
theorem test_malformed_faults :
    seen (fun t => (t.engine, t.rip)) (ran State.reset 0x00000001 0 0) =
      some (.faulted (.decodeFailure 0x7C00), 0x7C00) := by decide
theorem test_withFetchWord :
    step (State.reset.withFetchWord 32 0x0000010D) =
      exec (.hlt ⟨1, none⟩) { State.reset.withFetchWord 32 0x0000010D with rip := 0x7C01 } := by rfl

/-! ### Witnesses: the hypotheses of each statement, met together, one clause at a time -/

/-- The policy `UNMAPPED_REG_POLICY = fault`. -/
def strict : State := { State.reset with cfg := { Config.reference with unmappedReg := .fault } }

/-- Long mode with `LONG_MEM_READ = fault`. -/
def longFault : State := { inMode .long with cfg := { Config.reference with longMemRead := .fault } }

/-- `FETCH_WINDOW = clip`. -/
def clipped (rip : Word) : State :=
  { inMode .long with rip := rip, cfg := { Config.reference with fetchWindow := .clip } }

/-- The reset state about to receive a word. -/
def placed (h : BitVec 32) : State := placeWord State.reset (Diw.pack h 0 0)

theorem test_witness_DecodeInvertsEncode :
    (Instr.mov ⟨15, some .gs⟩ (.mem .w64 0xFFFFFFFFFFFFFFFF) (.imm ⟨.w8, 0xFF⟩)).wf = true ∧
    (Instr.unrec80 ⟨1, none⟩ 0x7F).wf = true := by decide

theorem test_witness_DecodedInstructionFitsItsTableRow :
    decode (Diw.pack 0x0003020B 0xFF 0) = .ok (.int ⟨2, none⟩ 0xFF) := by decide

theorem test_witness_TableRowsNeverOverlap :
    (Instr.hlt ⟨1, none⟩).row.holds 0x0000010D = true ∧ (Instr.hlt ⟨2, some .es⟩).row.holds 0x0000010D = true := by decide

/-- One admitted shape and one that is not. -/
theorem test_witness_AdmittedShapesDecodeAndOthersAreRejected :
    decode (Diw.pack 0x0003020B 0xFF 0) ≠ .malformed ∧ admitted 0x0B 3 0 0 = true ∧
    decode (Diw.pack 0x0013020B 0xFF 0) ≠ .malformed ∧ admitted 0x0B 3 0 1 = false := by decide

theorem test_witness_RegisterIdsNameTheTableOfViews :
    RegName.ofId 0x14 = .unmapped ∧ RegName.ofId 0x56 = .unmapped ∧ RegName.ofId 0x60 = .unmapped := by decide

theorem test_witness_ViewWritesReplaceTheirBitsOfOneCell : Gpr.rcx ≠ View.cell (.high8 .rax) := by decide

/-- One id of each class, at the ends of its indices. -/
theorem test_witness_RegisterReadIsTheZeroExtendedView :
    RegName.ofId 0x00 = .view (.low8 .rax) ∧ RegName.ofId 0x13 = .view (.high8 .rbx) ∧
    RegName.ofId 0x20 = .view (.bits16 .rax) ∧ RegName.ofId 0x37 = .view (.bits32 .rdi) ∧
    RegName.ofId 0x47 = .view (.bits64 .rdi) ∧ RegName.ofId 0x50 = .seg .es ∧ RegName.ofId 0x55 = .seg .gs := by decide

theorem test_witness_SegmentWriteChangesOnlyIt : RegName.ofId 0x55 = .seg .gs := by decide

theorem test_witness_UnmappedIdsFollowThePolicy :
    RegName.ofId 0x48 = .unmapped ∧ State.reset.cfg.unmappedReg = .zero ∧ strict.cfg.unmappedReg = .fault := by decide

/-- Less, greater under either policy; `a = b` for any `a`. -/
theorem test_witness_CompareSetsZeroAndCarryOnly :
    (0 : Word).toNat < (0xFFFFFFFFFFFFFFFF : Word).toNat ∧ CmpGtPolicy.clearBoth = .clearBoth ∧
    CmpGtPolicy.unchanged = .unchanged := by decide

theorem test_witness_EffectiveAddressOfAnOperand :
    (inMode .long).mode = .long ∧ State.reset.mode = .real ∧ (inMode .prot).mode = .prot := by decide

/-- The last byte of memory is inside, one more is outside. -/
theorem test_witness_BoundsAreTheOnlyMemoryCheck :
    (0x63FFFFF : Word).toNat + 1 ≤ State.reset.cfg.memSize ∧
    State.reset.cfg.memSize < (0x63FFFFF : Word).toNat + 2 := by decide

theorem test_witness_MemoryReadIsLittleEndian : (8 : Nat) ≤ 8 ∧ inBounds State.reset 0x63FFFF8 8 := by decide

theorem test_witness_MemoryWriteStoresItsBytesOnly : Memory.wf State.reset.mem ∧ inBounds State.reset 0x63FFFF8 8 := by
  decide

/-- Segmented modes, and Long mode with flat reads. -/
theorem test_witness_OperandValueByKind :
    (State.reset.mode = .long → State.reset.cfg.longMemRead = .flat) ∧
    operandAddr State.reset ⟨1, none⟩ 0x500 = .ok 0x500 ∧
    ((inMode .long).mode = .long → (inMode .long).cfg.longMemRead = .flat) ∧
    operandAddr (inMode .long) ⟨1, none⟩ 0x500 = .ok 0x500 := by decide

theorem test_witness_LongModeReadUnderTheFaultPolicy :
    longFault.mode = .long ∧ longFault.cfg.longMemRead = .fault := by decide

/-- A view, an unmapped id under the policy zero, a memory destination, and one in Long mode. -/
theorem test_witness_CanWrite :
    CanWrite State.reset ⟨1, none⟩ (.reg 0x20) ∧ CanWrite State.reset ⟨1, none⟩ (.reg 0x28) ∧
    CanWrite State.reset ⟨1, none⟩ (.mem .w16 0x500) ∧ CanWrite (inMode .long) ⟨1, none⟩ (.mem .w64 0x500) :=
  ⟨.inl (by decide), .inr rfl, .inr ⟨0x500, by decide, by decide⟩, .inl rfl⟩

theorem test_witness_MovPutsTheSourceInTheDestination :
    value State.reset ⟨1, none⟩ (.imm ⟨.w16, 0x1234⟩) = .ok 0x1234 ∧ CanWrite State.reset ⟨1, none⟩ (.reg 0x20) :=
  ⟨by decide, .inl (by decide)⟩

theorem test_witness_ArithmeticPutsTheResultInTheDestination :
    value State.reset ⟨1, none⟩ (destAsSource (.mem .w16 0x500)) = .ok 0 ∧
    value State.reset ⟨1, none⟩ (.reg 0x20) = .ok 0 ∧ CanWrite State.reset ⟨1, none⟩ (.mem .w16 0x500) :=
  ⟨by decide, by decide, .inr ⟨0x500, by decide, by decide⟩⟩

/-- A view and a segment register. -/
theorem test_witness_ArithmeticWrapsAtTheDestinationWidth :
    value State.reset ⟨1, none⟩ (.reg 0x10) = .ok 0 ∧ value State.reset ⟨1, none⟩ (.imm ⟨.w8, 0xFF⟩) = .ok 0xFF ∧
    RegName.ofId 0x10 = .view (.high8 .rax) ∧
    value State.reset ⟨1, none⟩ (.reg 0x53) = .ok 0 ∧ RegName.ofId 0x53 = .seg .ds := by decide

/-- The last bytes of memory in Real mode; the decoded width. -/
theorem test_witness_MovToMemoryStoresTheBytes :
    (inMode .prot).mode ≠ .long ∧ Memory.wf (inMode .prot).mem ∧
    value (inMode .prot) ⟨1, none⟩ (.imm ⟨.w32, 5⟩) = .ok 5 ∧
    operandAddr (inMode .prot) ⟨1, none⟩ 0x63FFFFC = .ok 0x63FFFFC ∧
    (0x63FFFFC : Word).toNat + 4 ≤ (inMode .prot).cfg.memSize := by decide

theorem test_witness_LongModeMemoryWritesAreSuppressed :
    (inMode .long).mode = .long ∧ value (inMode .long) ⟨1, none⟩ (.reg 0x40) = .ok 0 ∧
    value (inMode .long) ⟨1, none⟩ (.mem .w64 0x63FFFF8) = .ok 0 := by decide

theorem test_witness_CmpWritesZeroAndCarry :
    value State.reset ⟨1, none⟩ (destAsSource (.reg 0x20)) = .ok 0 ∧
    value State.reset ⟨1, none⟩ (.imm ⟨.w16, 0xFFFF⟩) = .ok 0xFFFF ∧ (0 : Word).toNat < (0xFFFF : Word).toNat ∧
    value State.reset ⟨1, none⟩ (destAsSource (.reg 0x24)) = .ok 0x7C00 ∧ (0 : Word).toNat < (0x7C00 : Word).toNat := by
  decide

theorem test_witness_JmpWritesTheTarget : value State.reset ⟨1, none⟩ (.mem .w16 0x600) = .ok 0 := by decide

theorem test_witness_ConditionalJumpsFollowZero :
    ({ State.reset with flags := 0x40 } : State).flags.getLsbD 6 = true ∧ State.reset.flags.getLsbD 6 = false := by decide

/-- Masked; another vector; another sub-function; the service. -/
theorem test_witness_IntDispatchesOnlyTeletype :
    flagGet .interrupt State.reset.flags = false ∧ (0x13 : Byte) ≠ 0x10 ∧
    ((withRax 0x0F41 ttyState).gpr.get .rax).extractLsb' 8 8 ≠ 0x0E#8 ∧
    flagGet .interrupt ttyState.flags = true ∧ (ttyState.gpr.get .rax).extractLsb' 8 8 = 0x0E#8 := by decide

/-- Memory in which the 2000 bytes from `a` up hold 1. -/
def filledFrom : Nat → Nat → Memory
  | _, 0     => []
  | a, n + 1 => (a, 1) :: filledFrom (a + 1) n

theorem filledFrom_byteAt {a n j : Nat} (h : j < n) : Memory.byteAt (filledFrom a n) (a + j) = 1 := by
  induction n generalizing a j with
  | zero => omega
  | succ n ih =>
    rw [filledFrom, Memory.byteAt]
    split
    · rfl
    · obtain ⟨k, rfl⟩ : ∃ k, j = k + 1 := ⟨j - 1, by omega⟩
      have e : a + (k + 1) = a + 1 + k := by omega
      rw [e]
      exact ih (by omega)

/-- The first cell is zero in the state of Y3; no cell is in the state of Y8. -/
theorem test_witness_TeletypeWritesTheFirstZeroCell :
    ttyState.cfg.Wf ∧ flagGet .interrupt ttyState.flags = true ∧ (ttyState.gpr.get .rax).extractLsb' 8 8 = 0x0E#8 ∧
    cellEmpty ttyState 0 ∧ (∀ j, j < 0 → ¬ cellEmpty ttyState j) ∧
    ∀ j, j < 2000 → ¬ cellEmpty { ttyState with mem := filledFrom 0xB8000 2000 } j := by
  refine ⟨by decide, by decide, by decide, fun j _ => rfl, fun j hj => absurd hj (by omega), fun j hj hc => ?_⟩
  have h0 : Memory.byteAt (filledFrom 0xB8000 2000) (0xB8000 + j * 1 + 0) = 0 := hc 0 (by decide)
  rw [show 0xB8000 + j * 1 + 0 = 0xB8000 + j by omega, filledFrom_byteAt hj] at h0
  exact absurd h0 (by decide)

theorem test_witness_LgdtLogsLimitAndBase :
    (State.reset.mode = .long → State.reset.cfg.longMemRead = .flat) ∧
    operandAddr State.reset ⟨1, none⟩ 0x63FFFFA = .ok 0x63FFFFA ∧ State.reset.cfg.memSize ≤ 2 ^ 64 ∧
    (0x63FFFFA : Word).toNat + 6 ≤ State.reset.cfg.memSize := by decide

/-- operand0 raises; operand0 is read and operand1 raises; Mov's or Jmp's source raises. -/
theorem test_witness_OperandErrorsFaultTheEngineInOrder :
    value State.reset ⟨1, none⟩ (destAsSource (.mem .w16 0x63FFFFF)) = .error (.raise (.outOfBounds 0x63FFFFF 2)) ∧
    value State.reset ⟨1, none⟩ (destAsSource (.reg 0x20)) = .ok 0 ∧
    value State.reset ⟨1, none⟩ (.mem .w16 0x63FFFFF) = .error (.raise (.outOfBounds 0x63FFFFF 2)) := by decide

/-- Under `MEM_WRITE_WIDTH = operand_decoded`. -/
def decodedWidths : State := { State.reset with cfg := { Config.reference with memWriteWidth := .operandDecoded } }

/-- A store, Lgdt's limit and Lgdt's base, each leaving memory by one byte; a destination that can be read and not
written: the read is two bytes, the decoded width eight. -/
theorem test_witness_AccessOutsideMemoryFaultsTheEngine :
    operandAddr State.reset ⟨1, none⟩ 0x63FFFFF = .ok 0x63FFFFF ∧ State.reset.mode ≠ .long ∧
    value State.reset ⟨1, none⟩ (.reg 0x20) = .ok 0 ∧
    State.reset.cfg.memSize < (0x63FFFFF : Word).toNat + storeBytes State.reset .w16 ∧
    (State.reset.mode = .long → State.reset.cfg.longMemRead = .flat) ∧ State.reset.cfg.memSize < 2 ^ 64 ∧
    State.reset.cfg.memSize < (0x63FFFFF : Word).toNat + 2 ∧
    operandAddr State.reset ⟨1, none⟩ 0x63FFFFB = .ok 0x63FFFFB ∧
    (0x63FFFFB : Word).toNat + 2 ≤ State.reset.cfg.memSize ∧
    State.reset.cfg.memSize < (0x63FFFFB : Word).toNat + 6 ∧
    operandAddr decodedWidths ⟨1, none⟩ 0x63FFFF9 = .ok 0x63FFFF9 ∧ decodedWidths.mode ≠ .long ∧
    value decodedWidths ⟨1, none⟩ (.reg 0x20) = .ok 0 ∧ value decodedWidths ⟨1, none⟩ (.mem .w64 0x63FFFF9) = .ok 0 ∧
    decodedWidths.cfg.memSize < (0x63FFFF9 : Word).toNat + storeBytes decodedWidths .w64 := by decide

theorem test_witness_UnmappedOperandStopsUnderTheFaultPolicy :
    RegName.ofId 0x28 = .unmapped ∧ strict.cfg.unmappedReg = .fault ∧ value strict ⟨1, none⟩ (.reg 0x20) = .ok 0 ∧
    value strict ⟨1, none⟩ (destAsSource (.mem .w16 0x500)) = .ok 0 := by decide

/-- A view, a segment register, memory, memory in Long mode. -/
theorem test_witness_ResultInstructionsChangeOnlyTheDestination :
    (∃ t, resultOf (.mov ⟨1, none⟩ (.reg 0x20) (.reg 0x23)) = some (⟨1, none⟩, .reg 0x20) ∧
      exec (.mov ⟨1, none⟩ (.reg 0x20) (.reg 0x23)) State.reset = .next t) ∧
    (∃ t, exec (.add ⟨1, none⟩ (.reg 0x53) (.reg 0x23)) State.reset = .next t) ∧
    (∃ t, operandAddr State.reset ⟨1, none⟩ 0x500 = .ok 0x500 ∧
      exec (.sub ⟨1, none⟩ (.mem .w16 0x500) (.reg 0x23)) State.reset = .next t) ∧
    (∃ t, exec (.or ⟨1, none⟩ (.mem .w64 0x500) (.reg 0x43)) (inMode .long) = .next t) :=
  ⟨⟨_, rfl, rfl⟩, ⟨_, rfl⟩, ⟨_, by decide, rfl⟩, ⟨_, rfl⟩⟩

theorem test_witness_OtherInstructionsChangeOneField :
    (∃ t, exec (.cmp ⟨1, none⟩ (.reg 0x20) (.reg 0x23)) State.reset = .next t) ∧
    (∃ t, exec (.jmp ⟨1, none⟩ (.reg 0x20)) State.reset = .next t) ∧
    (∃ t, exec (.je ⟨1, none⟩ ⟨.w16, 0x7C20⟩) State.reset = .next t) ∧
    (∃ t, exec (.jne ⟨1, none⟩ ⟨.w16, 0x7C20⟩) State.reset = .next t) ∧
    (∃ t, exec (.cli ⟨1, none⟩) State.reset = .next t) ∧ (∃ t, exec (.hlt ⟨1, none⟩) State.reset = .next t) ∧
    (∃ t, exec (.lgdt ⟨1, none⟩ .w16 0x7E00) State.reset = .next t) ∧
    (∃ t, exec (.unrec00 ⟨1, none⟩) State.reset = .next t) ∧ (∃ t, exec (.unrec0E ⟨1, none⟩ 1) State.reset = .next t) ∧
    (∃ t, exec (.unrec10 ⟨1, none⟩ 1) State.reset = .next t) ∧ (∃ t, exec (.unrec20 ⟨1, none⟩ 1) State.reset = .next t) ∧
    (∃ t, exec (.unrec40 ⟨1, none⟩ 1) State.reset = .next t) ∧ (∃ t, exec (.unrec80 ⟨1, none⟩ 1) State.reset = .next t) :=
  ⟨⟨_, rfl⟩, ⟨_, rfl⟩, ⟨_, rfl⟩, ⟨_, rfl⟩, ⟨_, rfl⟩, ⟨_, rfl⟩, ⟨_, rfl⟩, ⟨_, rfl⟩, ⟨_, rfl⟩, ⟨_, rfl⟩, ⟨_, rfl⟩, ⟨_, rfl⟩,
    ⟨_, rfl⟩⟩

/-- The constraint holds; a vector and a sub-function without service; a byte can change: Y3 writes `VIDEO_BASE`. -/
theorem test_witness_IntChangesAtMostOneVideoByte :
    ttyState.cfg.Wf ∧ (0x13 : Byte) ≠ 0x10 ∧ (withRax 0x0F41 ttyState).gpr.read (.high8 .rax) ≠ 0x0E ∧
    Memory.byteAt (Memory.setByte ttyState.mem 0xB8000 0x41) 0xB8000 ≠ Memory.byteAt ttyState.mem 0xB8000 := by decide

/-- A byte at either end of the window. -/
theorem test_witness_FetchWindowIsTheBytesAtRip :
    (fetchBytes State.reset)[0]? = some 0 ∧ (fetchBytes State.reset)[14]? = some 0 := by decide

theorem test_witness_StepRunsTheDecodedInstruction :
    Running (placed 0x0000010D) ∧ fetchInBounds (placed 0x0000010D) = true ∧
    consult (placed 0x0000010D).cfg.decoder (fetchBytes (placed 0x0000010D)) (placed 0x0000010D).mode
      (fetchAddr (placed 0x0000010D)) = some (Diw.pack 0x0000010D 0 0) ∧
    decode (Diw.pack 0x0000010D 0 0) = .ok (.hlt ⟨1, none⟩) := by decide

/-- The failure signal; a malformed word. -/
theorem test_witness_DecodeFailureFaultsTheEngine :
    Running State.reset ∧ fetchInBounds State.reset = true ∧
    consult State.reset.cfg.decoder (fetchBytes State.reset) State.reset.mode (fetchAddr State.reset) = none ∧
    Running (placed 0x00007101) ∧ fetchInBounds (placed 0x00007101) = true ∧
    consult (placed 0x00007101).cfg.decoder (fetchBytes (placed 0x00007101)) (placed 0x00007101).mode
      (fetchAddr (placed 0x00007101)) = some (Diw.pack 0x00007101 0 0) ∧
    decode (Diw.pack 0x00007101 0 0) = .malformed := by decide

/-- One byte short of a strict window; the first address past memory under `clip`. -/
theorem test_witness_FetchOutsideMemoryFaultsTheEngine :
    Running { inMode .long with rip := 0x63FFFF2 } ∧
    (inMode .long).cfg.fetchWindow = .strict15 ∧
    (inMode .long).cfg.memSize < (fetchAddr { inMode .long with rip := 0x63FFFF2 }).toNat + 15 ∧
    Running (clipped 0x6400000) ∧ (clipped 0x6400000).cfg.fetchWindow = .clip ∧
    (clipped 0x6400000).cfg.memSize ≤ (fetchAddr (clipped 0x6400000)).toNat := by decide

theorem test_witness_ShapeNotAdmittedHasNoStep :
    Running (placed 0x00000101) ∧ fetchInBounds (placed 0x00000101) = true ∧
    consult (placed 0x00000101).cfg.decoder (fetchBytes (placed 0x00000101)) (placed 0x00000101).mode
      (fetchAddr (placed 0x00000101)) = some (Diw.pack 0x00000101 0 0) ∧
    decode (Diw.pack 0x00000101 0 0) = .notAdmitted "Mov" := by decide

/-- Halted; faulted; stopped. -/
theorem test_witness_StoppedBlockNeverChanges :
    ({ State.reset with engine := .halted } : State).engine ≠ .fetch ∧
    ({ State.reset with engine := .faulted .storageFailure } : State).engine ≠ .fetch ∧
    ({ State.reset with stopReq := true } : State).stopReq = true := by decide

/-- A state that meets the invariant and whose step, Hlt, answers a next state; so for the other rules of every step. -/
theorem test_witness_StepKeepsMemoryInvariant :
    MemoryInv (placed 0x0000010D) ∧ ∃ t, step (placed 0x0000010D) = .next t := ⟨by decide, _, rfl⟩

theorem test_witness_StepKeepsWhatOnlyConstructionSets : ∃ t, step (placed 0x0000010D) = .next t := ⟨_, rfl⟩

theorem test_witness_StepDrivesOnlyCarryZeroInterrupt :
    (∃ t, step (placed 0x0000010A) = .next t) ∧ (placed 0x0000010A).flags.getLsbD 9 = false := ⟨⟨_, rfl⟩, by decide⟩

/-- A step that goes on, one that halts, one that faults. -/
theorem test_witness_EngineLeavesFetchOnlyByHltOrAPreciseFault :
    Running (placed 0x00000150) ∧ (∃ t, step (placed 0x00000150) = .next t) ∧
    Running (placed 0x0000010D) ∧ (∃ t, step (placed 0x0000010D) = .next t) ∧
    Running State.reset ∧ (∃ t, step State.reset = .next t) :=
  ⟨by decide, ⟨_, rfl⟩, by decide, ⟨_, rfl⟩, by decide, ⟨_, rfl⟩⟩

/-- A sector that ends where memory ends. -/
theorem test_witness_BootMeetsMemoryInvariant :
    BootParams.reference.Fits Config.reference ∧
    ({ BootParams.reference with resetIp := 0x63FFE00 } : BootParams).Fits Config.reference := by decide

theorem test_witness_BootEstablishesTheStateOfTheTable :
    BootParams.reference.Fits Config.reference ∧ Gpr.rax ≠ .rsp ∧ (0x7BFF : Nat) < BootParams.reference.resetIp.toNat ∧
    BootParams.reference.resetIp.toNat + 512 ≤ 0x7E00 := by decide

/-- The last slot and the first selector past it (Y12, Y13). -/
theorem test_witness_LoadSegmentCopiesTheIndexedSlot :
    threeSlots.gdt[(0x0013 : BitVec 16).toNat / 8]? = some ⟨6, 7, 8⟩ ∧
    threeSlots.gdt.length ≤ (0x0018 : BitVec 16).toNat / 8 := by decide

end Sys2Proof.Tests
end

namespace Sys2Proof.Machine

/-! ### Memory accesses and the end of memory (20_memory.md R63)

The complements of `memRead_ok` and `memWrite_ok`: when an access does not answer, and with which error. -/

theorem memRead_error {s : State} {a : Word} {n : Nat} {e : Stop} :
    memRead s a n = .error e ↔ ¬ inBounds s a n ∧ e = .raise (.outOfBounds a n) := by
  unfold memRead
  split <;> simp_all [eq_comm]

theorem memWrite_error {s : State} {a v : Word} {n : Nat} {e : Stop} :
    memWrite s a n v = .error e ↔ ¬ inBounds s a n ∧ e = .raise (.outOfBounds a n) := by
  unfold memWrite
  split <;> simp_all [eq_comm]

/-- Settles O19: inside memory both accesses answer; past its end both raise, whatever the bytes are. -/
theorem boundsAreTheOnlyMemoryCheck : Obligations.BoundsAreTheOnlyMemoryCheck := by
  intro s a v n
  constructor
  · intro inside
    exact ⟨⟨_, memRead_ok.2 ⟨inside, rfl⟩⟩, _, memWrite_ok.2 ⟨inside, rfl⟩⟩
  · intro past
    have outside : ¬ inBounds s a n := Nat.not_le_of_lt past
    exact ⟨memRead_error.2 ⟨outside, rfl⟩, memWrite_error.2 ⟨outside, rfl⟩⟩

end Sys2Proof.Machine

namespace Sys2Proof.Machine

/-! ### Register reads and view writes (40_block_primitives.md R130 to R135) -/

/-- Settles O8: a write stores the merged word in the view's cell, whose bits are known for each width. -/
theorem viewWritesReplaceTheirBitsOfOneCell : Obligations.ViewWritesReplaceTheirBitsOfOneCell := by
  intro g x
  have bits (v : View) (i : Nat) :
      ((g.write v x).get v.cell).getLsbD i = (v.merge (g.get v.cell) x).getLsbD i := by
    rw [Gprs.get_write_cell]
  refine ⟨fun r => ?_, fun r i => ?_, fun r i => ?_, fun r i => ?_, fun r i => ?_, fun v q other => ?_⟩
  · exact Gprs.get_write_cell g (.bits64 r) x
  · exact (bits (.bits32 r) i).trans (getLsbD_merge_bits32 ..)
  · exact (bits (.bits16 r) i).trans (getLsbD_merge_bits16 ..)
  · exact (bits (.low8 r) i).trans (getLsbD_merge_low8 ..)
  · exact (bits (.high8 r) i).trans (getLsbD_merge_high8 ..)
  · exact Gprs.get_write_ne g v x other

theorem regRead_view {s : State} {id : BitVec 8} {v : View} (h : RegName.ofId id = .view v) :
    regRead s id = .ok (s.gpr.read v) := by
  rw [regRead, h]

theorem regRead_seg {s : State} {id : BitVec 8} {q : SegReg} (h : RegName.ofId id = .seg q) :
    regRead s id = .ok ((s.seg.get q).setWidth 64) := by
  rw [regRead, h]

/-- Each bit read through a view that starts at bit 0 of its cell. -/
theorem Gprs.getLsbD_read_of_lo_zero (g : Gprs) {v : View} (h : v.lo = 0) (i : Nat) :
    (g.read v).getLsbD i = if i < v.width then (g.get v.cell).getLsbD i else false := by
  rw [Gprs.getLsbD_read, h, Nat.zero_add]

/-- The 64-bit view is the whole cell. -/
theorem Gprs.read_bits64 (g : Gprs) (r : Gpr) : g.read (.bits64 r) = g.get r :=
  BitVec.eq_of_getLsbD_eq fun i hi =>
    (g.getLsbD_read_of_lo_zero (v := .bits64 r) rfl i).trans (if_pos hi)

/-- Settles O9: one clause a class of names, each the bits of the view that `regRead` reads. -/
theorem registerReadIsTheZeroExtendedView : Obligations.RegisterReadIsTheZeroExtendedView := by
  intro s id
  refine ⟨fun r h => ?_, fun r h => ?_, fun r h => ?_, fun r h => ?_, fun r h => ?_, fun q h => ?_⟩
  · exact ⟨_, regRead_view h, s.gpr.getLsbD_read_of_lo_zero (v := .low8 r) rfl⟩
  · exact ⟨_, regRead_view h, s.gpr.getLsbD_read (.high8 r)⟩
  · exact ⟨_, regRead_view h, s.gpr.getLsbD_read_of_lo_zero (v := .bits16 r) rfl⟩
  · exact ⟨_, regRead_view h, s.gpr.getLsbD_read_of_lo_zero (v := .bits32 r) rfl⟩
  · rw [regRead_view h, Gprs.read_bits64]
  · exact ⟨_, regRead_seg h, BitVec.toNat_setWidth_of_le (by decide)⟩

/-! ### Flag setters (40_block_primitives.md R140) -/

@[simp] theorem flagSet_flagSet_self (f : FlagBit) (b : Bool) (w : Word) :
    flagSet f b (flagSet f b w) = flagSet f b w := by
  refine BitVec.eq_of_getLsbD_eq fun i _ => ?_
  by_cases own : i = f.pos <;> simp [getLsbD_flagSet, own]

/-- Settles O14: the bits of the new flags word are the old ones but for the flag's own. -/
theorem flagSetChangesOnlyItsBit : Obligations.FlagSetChangesOnlyItsBit := by
  intro f b w
  refine ⟨flagGet_flagSet_self f b w, fun i other => ?_, flagSet_flagSet_self f b w⟩
  rw [getLsbD_flagSet, if_neg other]

/-! ### The interrupt dispatcher (40_block_primitives.md R143) -/

/-- The dispatcher compares AH zero-extended; the spec's sub-function is its eight bits. -/
theorem Gprs.read_high8_eq_iff (g : Gprs) (r : HighGpr) (b : Byte) :
    g.read (.high8 r) = b.setWidth 64 ↔ (g.get r.cell).extractLsb' 8 8 = b := by
  show ((g.get r.cell).extractLsb' 8 8).setWidth 64 = b.setWidth 64 ↔ _
  rw [← BitVec.toNat_inj, BitVec.toNat_setWidth_of_le (by decide), BitVec.toNat_setWidth_of_le (by decide),
    BitVec.toNat_inj]

theorem dispatch_of_masked {s : State} (vec : Byte) (masked : flagGet .interrupt s.flags = false) :
    dispatch s vec = .ok s := by
  rw [dispatch, if_pos masked]

theorem dispatch_of_no_service {s : State} {vec : Byte}
    (other : vec ≠ 0x10 ∨ (s.gpr.get .rax).extractLsb' 8 8 ≠ 0x0E#8) : dispatch s vec = .ok s := by
  have noService : ¬ (vec = 0x10 ∧ s.gpr.read (.high8 .rax) = 0x0E) := by
    rintro ⟨hvec, hah⟩
    exact other.elim (· hvec) (· ((s.gpr.read_high8_eq_iff .rax 0x0E).1 hah))
  rw [dispatch, if_neg noService, ite_self]

theorem dispatch_of_teletype {s : State} (enabled : flagGet .interrupt s.flags = true)
    (sub : (s.gpr.get .rax).extractLsb' 8 8 = 0x0E#8) : dispatch s 0x10 = teletype s := by
  have hah : s.gpr.read (.high8 .rax) = 0x0E := (s.gpr.read_high8_eq_iff .rax 0x0E).2 sub
  rw [dispatch, if_neg (by simp [enabled]), if_pos ⟨rfl, hah⟩]

theorem exec_int (h : Head) (vec : Byte) (s : State) : exec (.int h vec) s = finish s (dispatch s vec) := rfl

/-- Settles O34: the three cases of the dispatcher, under `finish`. -/
theorem intDispatchesOnlyTeletype : Obligations.IntDispatchesOnlyTeletype := by
  intro h vec s
  simp only [exec_int]
  refine ⟨fun masked => ?_, fun other => ?_, fun enabled sub => ?_⟩
  · rw [dispatch_of_masked vec masked, finish_ok]
  · rw [dispatch_of_no_service other, finish_ok]
  · rw [dispatch_of_teletype enabled sub]

end Sys2Proof.Machine

namespace Sys2Proof.Machine

/-! ### Operand values (41_engine_cycle.md R165 to R167) -/

theorem value_reg (s : State) (h : Head) (id : BitVec 8) : value s h (.reg id) = regRead s id := rfl

theorem value_imm (s : State) (h : Head) (i : Imm) : value s h (.imm i) = .ok i.val := rfl

/-- A memory operand whose read address is formed is read there, at the mode's width: its decoded width `w` has no part. -/
theorem value_mem {s : State} {h : Head} {w : OpWidth} {disp a : Word} (addr : readAddr s h disp = .ok a) :
    value s h (.mem w disp) = memRead s a (modeBytes s.mode) := by
  show (readAddr s h disp).bind (fun a => memRead s a (modeBytes s.mode)) = _
  rw [addr, Except.bind]

/-- Settles O22: one clause an operand kind; outside the Long mode fault policy a memory operand's read address is its
effective address. -/
theorem operandValueByKind : Obligations.OperandValueByKind := by
  intro s h
  refine ⟨value_reg s h, fun w disp a flat addr => ?_, value_imm s h⟩
  have readAt : readAddr s h disp = .ok a := (readAddr_eq_operandAddr flat).trans addr
  rw [value_mem readAt]
  cases s.mode <;> rfl

end Sys2Proof.Machine

namespace Sys2Proof.Machine

/-! ### Cli (44_system.md R220) -/

theorem exec_cli (h : Head) (s : State) :
    exec (.cli h) s = .next (s.setFlags (flagSet .interrupt false s.flags)) := rfl

/-- Settles O33: the new flags word is the old one with Interrupt-enable set to false, whose bits `getLsbD_flagSet` gives. -/
theorem cliClearsInterruptEnable : Obligations.CliClearsInterruptEnable := by
  intro h s
  exact ⟨flagSet .interrupt false s.flags, exec_cli h s, getLsbD_flagSet .interrupt false s.flags⟩

end Sys2Proof.Machine

namespace Sys2Proof.Machine

/-! ### The Execute phase as its reads and what follows them (41_engine_cycle.md R164 to R172) -/

section
variable (h : Head) (d : Dest) (r : Source) (s : State)

theorem exec_mov : exec (.mov h d r) s = finish s (value s h r >>= writeBack s h d) := rfl

theorem exec_jmp : exec (.jmp h r) s = finish s (value s h r >>= fun v => .ok (s.setRip v)) := rfl

theorem exec_cmp : exec (.cmp h d r) s = finish s (value s h (destAsSource d) >>= fun a => value s h r >>= fun b =>
    .ok (s.setFlags (compareFlags s.cfg.cmpGt s.flags a b))) := rfl

theorem alu_eq (op : Word → Word → Word) : alu op h d r s = finish s (value s h (destAsSource d) >>= fun a =>
    value s h r >>= fun b => writeBack s h d (op a b)) := rfl

theorem exec_lgdt (w : OpWidth) (disp : Word) : exec (.lgdt h w disp) s = finish s (readAddr s h disp >>= fun a =>
    memRead s a 2 >>= fun limit => memRead s (a + 2) 4 >>= fun base =>
      .ok (s.emit (.lgdt (limit.extractLsb' 0 16) (base.extractLsb' 0 32)))) := rfl

/-- Add, Sub, And and Or are one phase with four operations. -/
theorem exec_arithmetic {i : Instr} (mem : i ∈ [Instr.add h d r, .sub h d r, .and h d r, .or h d r]) :
    ∃ op, exec i s = alu op h d r s := by
  simp only [List.mem_cons, List.not_mem_nil, or_false] at mem
  obtain rfl | rfl | rfl | rfl := mem
  · exact ⟨fun a b => a + b, rfl⟩
  · exact ⟨fun a b => a - b, rfl⟩
  · exact ⟨fun a b => a &&& b, rfl⟩
  · exact ⟨fun a b => a ||| b, rfl⟩

/-- The five that read operand0 read it first, then operand1. -/
theorem exec_readsBoth {i : Instr} (mem : i ∈ [Instr.add h d r, .sub h d r, .and h d r, .or h d r, .cmp h d r]) :
    ∃ f : Word → Word → Res State,
      exec i s = finish s (value s h (destAsSource d) >>= fun a => value s h r >>= f a) := by
  obtain four | rfl : i ∈ [Instr.add h d r, .sub h d r, .and h d r, .or h d r] ∨ i = .cmp h d r := by
    simpa [or_assoc] using mem
  · obtain ⟨op, run⟩ := exec_arithmetic h d r s four
    exact ⟨fun a b => writeBack s h d (op a b), run⟩
  · exact ⟨_, exec_cmp h d r s⟩

end

theorem exec_je (h : Head) (t : Imm) (s : State) :
    exec (.je h t) s = .next (if s.flags.getLsbD 6 then s.setRip t.val else s) := rfl

theorem exec_jne (h : Head) (t : Imm) (s : State) :
    exec (.jne h t) s = .next (if s.flags.getLsbD 6 then s else s.setRip t.val) := rfl

theorem exec_hlt (h : Head) (s : State) : exec (.hlt h) s = .next (s.setEngine .halted) := rfl

/-! ### Memory stays canonical and inside its arena (20_memory.md R60, R62, R63) -/

/-- The invariant speaks of memory and the parameters alone. -/
theorem MemoryInv.of_same_mem {s t : State} (inv : MemoryInv s) (mem : t.mem = s.mem) (cfg : t.cfg = s.cfg) :
    MemoryInv t := by
  rw [MemoryInv, mem, cfg]
  exact inv

/-- A store inside the arena adds cells of the arena only. -/
theorem MemoryInv.writeBytes {s : State} (inv : MemoryInv s) {a : Word} {n : Nat} (v : Word)
    (inside : inBounds s a n) : MemoryInv (s.setMem (Memory.writeBytes s.mem a.toNat v n)) := by
  obtain ⟨canonical, arena⟩ := inv
  refine ⟨Memory.wf_writeBytes canonical a.toNat v n, fun c hc => ?_⟩
  show c.1 < s.cfg.memSize
  obtain old | ⟨_, below⟩ := Memory.mem_writeBytes hc
  · exact arena c old
  · exact Nat.lt_of_lt_of_le below inside

theorem Effect.memoryInv {s t : State} (e : Effect s t) (inv : MemoryInv s) : MemoryInv t := by
  cases e with
  | mem a v n inside => exact inv.writeBytes v inside
  | same | gpr | seg | compared | cli | jump | raised | halted | logged => exact inv.of_same_mem rfl rfl

/-- Settles O50: an idle tick, a raised error and the advance of rip keep memory, and so does every effect of an
instruction but a store, which stays inside the arena. -/
theorem stepKeepsMemoryInvariant : Obligations.StepKeepsMemoryInvariant := by
  intro s t inv h
  obtain rfl | ⟨k, rfl⟩ | ⟨i, -, run⟩ := step_cases h
  · exact inv
  · exact inv.of_same_mem rfl rfl
  · exact (exec_effect run).memoryInv (inv.of_same_mem rfl rfl)

/-- Settles O51: no cell is listed. -/
theorem resetMeetsMemoryInvariant : Obligations.ResetMeetsMemoryInvariant :=
  ⟨State.reset_mem_wf, fun _ hc => nomatch hc⟩

/-! ### The descriptors have no influence (20_memory.md R75, 10_state.md R33)

Other descriptors commute with every layer of the step: what is read does not see them, what is written carries them
along. -/

section
variable (d : DescCache) (g : List GdtEntry)

theorem finish_withDescriptors (s : State) (r : Res State) :
    finish (withDescriptors d g s) (r.map (withDescriptors d g)) = mapNext (withDescriptors d g) (finish s r) := by
  rcases r with (_ | _) | _ <;> rfl

theorem value_withDescriptors (s : State) (h : Head) (r : Source) :
    value (withDescriptors d g s) h r = value s h r := by
  cases r <;> rfl

theorem regWrite_withDescriptors (s : State) (id : BitVec 8) (x : Word) :
    regWrite (withDescriptors d g s) id x = (regWrite s id x).map (withDescriptors d g) := by
  unfold regWrite
  cases RegName.ofId id with
  | view v => rfl
  | seg q => rfl
  | unmapped =>
    show unmapped s id (withDescriptors d g s) = (unmapped s id s).map (withDescriptors d g)
    unfold unmapped
    cases s.cfg.unmappedReg <;> rfl

theorem memWrite_withDescriptors (s : State) (a : Word) (n : Nat) (v : Word) :
    memWrite (withDescriptors d g s) a n v = (memWrite s a n v).map (withDescriptors d g) := by
  by_cases inside : inBounds s a n
  · rw [memWrite_ok.2 ⟨inside, rfl⟩]
    exact memWrite_ok.2 ⟨inside, rfl⟩
  · rw [memWrite_error.2 ⟨inside, rfl⟩]
    exact memWrite_error.2 ⟨inside, rfl⟩

theorem writeBack_withDescriptors (s : State) (h : Head) (dst : Dest) (v : Word) :
    writeBack (withDescriptors d g s) h dst v = (writeBack s h dst v).map (withDescriptors d g) := by
  cases dst with
  | reg id => exact regWrite_withDescriptors d g s id v
  | mem w disp =>
    obtain ⟨a, addr⟩ := operandAddr_total s h disp
    have addr' : operandAddr (withDescriptors d g s) h disp = .ok a := addr
    have mode : (withDescriptors d g s).mode = s.mode := rfl
    by_cases long : s.mode = .long
    · simp only [writeBack, mode, if_pos long]
      rfl
    · simp only [writeBack, mode, if_neg long, addr, addr', res_ok_bind]
      exact memWrite_withDescriptors d g s a (storeBytes s w) v

theorem teletypeFrom_withDescriptors (s : State) (n k : Nat) :
    teletypeFrom (withDescriptors d g s) n k = (teletypeFrom s n k).map (withDescriptors d g) := by
  induction n generalizing k with
  | zero => rfl
  | succ n ih =>
    have cell : memRead (withDescriptors d g s) (videoCellAddr (withDescriptors d g s) k)
        (withDescriptors d g s).cfg.videoCell.toNat = memRead s (videoCellAddr s k) s.cfg.videoCell.toNat := rfl
    rw [teletypeFrom, teletypeFrom, cell]
    cases memRead s (videoCellAddr s k) s.cfg.videoCell.toNat with
    | error e => rfl
    | ok c =>
      simp only [res_ok_bind]
      split
      · exact memWrite_withDescriptors d g s (videoCellAddr s k) 1 (s.gpr.read (.low8 .rax))
      · exact ih (k + 1)

theorem dispatch_withDescriptors (s : State) (vec : Byte) :
    dispatch (withDescriptors d g s) vec = (dispatch s vec).map (withDescriptors d g) := by
  have flags : (withDescriptors d g s).flags = s.flags := rfl
  have gpr : (withDescriptors d g s).gpr = s.gpr := rfl
  unfold dispatch
  rw [flags, gpr]
  split
  · rfl
  · split
    · exact teletypeFrom_withDescriptors d g s videoCells 0
    · rfl

/-- Reads of an Execute phase do not see the descriptors: only what follows them has to carry the others along. -/
theorem map_bind_withDescriptors {α : Type} (x : Res α) {f f' : α → Res State}
    (rest : ∀ a, f' a = (f a).map (withDescriptors d g)) : (x >>= f') = (x >>= f).map (withDescriptors d g) := by
  cases x with
  | error e => rfl
  | ok a => exact rest a

theorem alu_withDescriptors (op : Word → Word → Word) (h : Head) (dst : Dest) (r : Source) (s : State) :
    alu op h dst r (withDescriptors d g s) = mapNext (withDescriptors d g) (alu op h dst r s) := by
  rw [alu_eq, alu_eq, ← finish_withDescriptors, value_withDescriptors, value_withDescriptors]
  exact congrArg (finish _) <| map_bind_withDescriptors d g _ fun a => map_bind_withDescriptors d g _ fun b =>
    writeBack_withDescriptors d g s h dst (op a b)

theorem exec_withDescriptors (i : Instr) (s : State) :
    exec i (withDescriptors d g s) = mapNext (withDescriptors d g) (exec i s) := by
  have flags : (withDescriptors d g s).flags = s.flags := rfl
  cases i with
  | mov h dst r =>
    rw [exec_mov, exec_mov, ← finish_withDescriptors, value_withDescriptors]
    exact congrArg (finish _) <| map_bind_withDescriptors d g _ fun v => writeBack_withDescriptors d g s h dst v
  | add h dst r => exact alu_withDescriptors d g _ h dst r s
  | sub h dst r => exact alu_withDescriptors d g _ h dst r s
  | and h dst r => exact alu_withDescriptors d g _ h dst r s
  | or h dst r => exact alu_withDescriptors d g _ h dst r s
  | cmp h dst r =>
    rw [exec_cmp, exec_cmp, ← finish_withDescriptors, value_withDescriptors, value_withDescriptors]
    exact congrArg (finish _) <| map_bind_withDescriptors d g _ fun a => map_bind_withDescriptors d g _ fun b => rfl
  | jmp h t =>
    rw [exec_jmp, exec_jmp, ← finish_withDescriptors, value_withDescriptors]
    exact congrArg (finish _) <| map_bind_withDescriptors d g _ fun v => rfl
  | je h t =>
    rw [exec_je, exec_je, flags]
    split <;> rfl
  | jne h t =>
    rw [exec_jne, exec_jne, flags]
    split <;> rfl
  | int h vec =>
    rw [exec_int, exec_int, ← finish_withDescriptors, dispatch_withDescriptors]
  | lgdt h w disp =>
    rw [exec_lgdt, exec_lgdt, ← finish_withDescriptors]
    exact congrArg (finish _) <| map_bind_withDescriptors d g _ fun a => map_bind_withDescriptors d g _ fun limit =>
      map_bind_withDescriptors d g _ fun base => rfl
  | cli | hlt | unrec00 | unrec0E | unrec10 | unrec20 | unrec40 | unrec80 => rfl

end

/-- Settles O56: Fetch and Decode do not see the descriptors, an idle tick and an error carry them along; the rest is the
Execute phase. -/
theorem descriptorsInfluenceNoStep : Obligations.DescriptorsInfluenceNoStep := by
  intro s d g
  have fetched : fetchDecode (withDescriptors d g s) = fetchDecode s := rfl
  have stop : (withDescriptors d g s).stopReq = s.stopReq := rfl
  have engine : (withDescriptors d g s).engine = s.engine := rfl
  unfold step
  rw [stop, engine, fetched]
  cases s.stopReq with
  | true => rfl
  | false =>
    cases s.engine with
    | halted => rfl
    | faulted k => rfl
    | fetch =>
      cases fetchDecode s with
      | instr i => exact exec_withDescriptors d g i (advance i.head.len s)
      | error k => rfl
      | notAdmitted m => rfl

end Sys2Proof.Machine

namespace Sys2Proof

/-! ### The canonical word gives its instruction back (30_encoding.md R101 to R109) -/

@[simp] theorem OpWidth.ofCode_code (w : OpWidth) : OpWidth.ofCode w.code = w := by cases w <;> rfl

@[simp] theorem SegReg.ofCode_code (o : Option SegReg) : SegReg.ofCode (SegReg.code o) = o := by
  rcases o with _ | (_ | _ | _ | _ | _ | _) <;> rfl

theorem SegReg.code_ne_reserved (o : Option SegReg) : SegReg.code o ≠ 7 := by
  rcases o with _ | (_ | _ | _ | _ | _ | _) <;> decide

@[simp] theorem Byte.extractLsb'_setWidth (b : Byte) : (b.setWidth 64).extractLsb' 0 8 = b := by
  rw [BitVec.extractLsb'_setWidth_of_le (by decide), BitVec.extractLsb'_eq_self]

/-- The three fields of an operand give it back. -/
theorem Operand.ofFields_encoded (o : Operand) : Operand.ofFields o.kind o.widthCode o.payload = o := by
  cases o with
  | none => rfl
  | reg id => exact congrArg Operand.reg (Byte.extractLsb'_setWidth id)
  | mem w disp => exact congrArg (Operand.mem · disp) (OpWidth.ofCode_code w)
  | imm i => exact congrArg (fun w => Operand.imm ⟨w, i.val⟩) (OpWidth.ofCode_code i.width)

theorem Diw.operand0_encode (i : Instr) : Diw.operand0 (encode i) = i.operands.1 := by
  simp only [Diw.operand0, Diw.kind0, Diw.width0, encode, Diw.header_pack, Diw.payload0_pack, encodeHeader_kind0,
    encodeHeader_width0, Operand.ofFields_encoded]

theorem Diw.operand1_encode (i : Instr) : Diw.operand1 (encode i) = i.operands.2 := by
  simp only [Diw.operand1, Diw.kind1, Diw.width1, encode, Diw.header_pack, Diw.payload1_pack, encodeHeader_kind1,
    encodeHeader_width1, Operand.ofFields_encoded]

theorem Diw.mn_encode (i : Instr) : Diw.mn (encode i) = i.code := (Laws.EncodedHeader.every i).1

theorem Diw.head_encode (i : Instr) : Diw.head (encode i) = i.head := by
  obtain ⟨-, len, seg, -, -⟩ := Laws.EncodedHeader.every i
  rw [Diw.head, len, seg, SegReg.ofCode_code]

@[simp] theorem Source.fits_toOperand (r : Source) : r.toOperand.fits = r.wf := by cases r <;> rfl

@[simp] theorem Dest.fits_toOperand (d : Dest) : d.toOperand.fits = true := by cases d <;> rfl

/-- A vector is an immediate of its own width. -/
theorem Imm.wf_vector (vec : Byte) : Imm.wf ⟨.w8, vec.setWidth 64⟩ = true := by
  have := vec.isLt
  simp only [Imm.wf, OpWidth.bytes, BitVec.toNat_setWidth, decide_eq_true_eq]
  omega

@[simp] theorem Operand.fits_none : Operand.none.fits = true := rfl
@[simp] theorem Operand.fits_reg (id : BitVec 8) : (Operand.reg id).fits = true := rfl
@[simp] theorem Operand.fits_mem (w : OpWidth) (disp : Word) : (Operand.mem w disp).fits = true := rfl
@[simp] theorem Operand.fits_imm (i : Imm) : (Operand.imm i).fits = i.wf := rfl

/-- Well-formedness is a valid length and two operands that fit their widths. -/
theorem Instr.wf_eq (i : Instr) : i.wf = (i.head.wf && i.operands.1.fits && i.operands.2.fits) := by
  cases i with
  | int h vec => simp [Instr.wf, Instr.head, Instr.operands, Imm.wf_vector]
  | _ => simp [Instr.wf, Instr.head, Instr.operands]

theorem Diw.malformed_encode {i : Instr} (wf : i.wf = true) : Diw.malformed (encode i) = false := by
  obtain ⟨-, len, seg, low, high⟩ := Laws.EncodedHeader.every i
  rw [Instr.wf_eq, Bool.and_eq_true, Bool.and_eq_true] at wf
  obtain ⟨⟨length, fits0⟩, fits1⟩ := wf
  have length : i.head.len ≠ 0 := by simpa [Head.wf] using length
  have override := SegReg.code_ne_reserved i.head.ovr
  simp_all [Diw.malformed, Diw.operand0_encode, Diw.operand1_encode]

@[simp] theorem Dest.toDest_toOperand (d : Dest) : d.toOperand.toDest = some d := by cases d <;> rfl

@[simp] theorem Source.toSource_toOperand (r : Source) : r.toOperand.toSource = some r := by cases r <;> rfl

/-- The codes from 0x0E up belong to no mnemonic, whatever the operands. -/
theorem Diw.shape_of_unrecognized {d : Diw} (mn : 0x0E ≤ (Diw.mn d).toNat) :
    Diw.shape d = .ok (Decoded.unrecognized (Diw.head d) (Diw.mn d)) := by
  unfold Diw.shape
  split
  case h_15 => rfl
  all_goals omega

/-- The number of a code in a row's fixed bits `p` and free bits `lo`. -/
theorem toNat_fixed_append_free {m n : Nat} (p : BitVec m) (lo : BitVec n) :
    (p ++ lo).toNat = p.toNat * 2 ^ n + lo.toNat := by
  rw [BitVec.toNat_append, Nat.shiftLeft_eq, Nat.mul_comm, Nat.two_pow_add_eq_or_of_lt lo.isLt]

theorem extractLsb'_fixed_append_free {m n : Nat} (p : BitVec m) (lo : BitVec n) :
    (p ++ lo).extractLsb' 0 n = lo := by
  rw [BitVec.extractLsb'_append_eq_of_add_le (by omega), BitVec.extractLsb'_eq_self]

theorem toNat_code_unrec0E (lo : BitVec 1) : (0b0000111#7 ++ lo).toNat = 0x0E + lo.toNat := toNat_fixed_append_free ..
theorem toNat_code_unrec10 (lo : BitVec 4) : (0b0001#4 ++ lo).toNat = 0x10 + lo.toNat := toNat_fixed_append_free ..
theorem toNat_code_unrec20 (lo : BitVec 5) : (0b001#3 ++ lo).toNat = 0x20 + lo.toNat := toNat_fixed_append_free ..
theorem toNat_code_unrec40 (lo : BitVec 6) : (0b01#2 ++ lo).toNat = 0x40 + lo.toNat := toNat_fixed_append_free ..
theorem toNat_code_unrec80 (lo : BitVec 7) : (0b1#1 ++ lo).toNat = 0x80 + lo.toNat := toNat_fixed_append_free ..

section
variable (h : Head)

theorem Decoded.unrecognized_unrec0E (lo : BitVec 1) :
    Decoded.unrecognized h (0b0000111#7 ++ lo) = .unrec0E h lo := by
  have := toNat_code_unrec0E lo
  have := lo.isLt
  rw [Decoded.unrecognized, if_pos (by omega), extractLsb'_fixed_append_free]

theorem Decoded.unrecognized_unrec10 (lo : BitVec 4) :
    Decoded.unrecognized h (0b0001#4 ++ lo) = .unrec10 h lo := by
  have := toNat_code_unrec10 lo
  have := lo.isLt
  rw [Decoded.unrecognized, if_neg (by omega), if_pos (by omega), extractLsb'_fixed_append_free]

theorem Decoded.unrecognized_unrec20 (lo : BitVec 5) :
    Decoded.unrecognized h (0b001#3 ++ lo) = .unrec20 h lo := by
  have := toNat_code_unrec20 lo
  have := lo.isLt
  rw [Decoded.unrecognized, if_neg (by omega), if_neg (by omega), if_pos (by omega), extractLsb'_fixed_append_free]

theorem Decoded.unrecognized_unrec40 (lo : BitVec 6) :
    Decoded.unrecognized h (0b01#2 ++ lo) = .unrec40 h lo := by
  have := toNat_code_unrec40 lo
  have := lo.isLt
  rw [Decoded.unrecognized, if_neg (by omega), if_neg (by omega), if_neg (by omega), if_pos (by omega),
    extractLsb'_fixed_append_free]

theorem Decoded.unrecognized_unrec80 (lo : BitVec 7) :
    Decoded.unrecognized h (0b1#1 ++ lo) = .unrec80 h lo := by
  have := toNat_code_unrec80 lo
  rw [Decoded.unrecognized, if_neg (by omega), if_neg (by omega), if_neg (by omega), if_neg (by omega),
    extractLsb'_fixed_append_free]

end

/-- The shape of a canonical word in the free codes is the row's instruction. -/
theorem Diw.shape_encode_unrecognized {i : Instr} (free : 0x0E ≤ i.code.toNat)
    (row : Decoded.unrecognized i.head i.code = i) : Diw.shape (encode i) = .ok i := by
  rw [Diw.shape_of_unrecognized (by rwa [Diw.mn_encode]), Diw.head_encode, Diw.mn_encode, row]

/-- A recognized code picks its constructor, whose operands are the word's. -/
theorem Diw.shape_encode (i : Instr) : Diw.shape (encode i) = .ok i := by
  have mn := Diw.mn_encode i
  have head := Diw.head_encode i
  have operand0 := Diw.operand0_encode i
  have operand1 := Diw.operand1_encode i
  cases i with
  | unrec0E h lo =>
    refine shape_encode_unrecognized ?_ (Decoded.unrecognized_unrec0E h lo)
    exact toNat_code_unrec0E lo ▸ Nat.le_add_right _ _
  | unrec10 h lo =>
    refine shape_encode_unrecognized ?_ (Decoded.unrecognized_unrec10 h lo)
    exact toNat_code_unrec10 lo ▸ Nat.le_add_right_of_le (by decide)
  | unrec20 h lo =>
    refine shape_encode_unrecognized ?_ (Decoded.unrecognized_unrec20 h lo)
    exact toNat_code_unrec20 lo ▸ Nat.le_add_right_of_le (by decide)
  | unrec40 h lo =>
    refine shape_encode_unrecognized ?_ (Decoded.unrecognized_unrec40 h lo)
    exact toNat_code_unrec40 lo ▸ Nat.le_add_right_of_le (by decide)
  | unrec80 h lo =>
    refine shape_encode_unrecognized ?_ (Decoded.unrecognized_unrec80 h lo)
    exact toNat_code_unrec80 lo ▸ Nat.le_add_right_of_le (by decide)
  | mov | add | sub | and | or | cmp =>
    simp [shape, mn, head, operand0, operand1, Instr.code, Instr.head, Instr.operands, Decoded.binary]
  | jmp => simp [shape, mn, head, operand0, operand1, Instr.code, Instr.head, Instr.operands, Decoded.unary]
  | je | jne => simp [shape, mn, head, operand0, operand1, Instr.code, Instr.head, Instr.operands, Decoded.immediate]
  | int => simp [shape, mn, head, operand0, operand1, Instr.code, Instr.head, Instr.operands, Decoded.vector]
  | lgdt => simp [shape, mn, head, operand0, operand1, Instr.code, Instr.head, Instr.operands, Decoded.memory]
  | cli | hlt => simp [shape, mn, head, operand0, operand1, Instr.code, Instr.head, Instr.operands, Decoded.bare]
  | unrec00 => simp [shape, mn, head, Instr.code, Instr.head]

/-- Settles O1: the canonical word of a well-formed instruction is not malformed, and its shape is the instruction. -/
theorem decodeInvertsEncode : Obligations.DecodeInvertsEncode := by
  intro i wf
  rw [decode, Diw.malformed_encode wf, if_neg Bool.false_ne_true, Diw.shape_encode]

end Sys2Proof

namespace Sys2Proof

/-! ### What a decoded word fits (30_encoding.md R106, R109, R110) -/

@[simp] theorem OpWidth.code_ofCode (c : BitVec 2) : (OpWidth.ofCode c).code = c := by
  revert c
  decide

theorem kindCode_cases (k : BitVec 2) : k = 0 ∨ k = 1 ∨ k = 2 ∨ k = 3 := by
  revert k
  decide

/-- The kind of an operand is the kind code it was read from. -/
theorem Operand.kind_ofFields (k w : BitVec 2) (p : Word) : (Operand.ofFields k w p).kind = k := by
  obtain rfl | rfl | rfl | rfl := kindCode_cases k <;> rfl

theorem Diw.kind_operand0 (d : Diw) : (Diw.operand0 d).kind = Diw.kind0 d := Operand.kind_ofFields ..

theorem Diw.kind_operand1 (d : Diw) : (Diw.operand1 d).kind = Diw.kind1 d := Operand.kind_ofFields ..

/-- The width of an immediate is the width code it was read from, and its literal is the payload. -/
theorem Operand.ofFields_eq_imm {k w : BitVec 2} {p : Word} {m : Imm} (h : Operand.ofFields k w p = .imm m) :
    m = ⟨OpWidth.ofCode w, p⟩ := by
  obtain rfl | rfl | rfl | rfl := kindCode_cases k
  · cases h
  · cases h
  · cases h
  · exact (Operand.imm.inj h).symm

/-! #### Admitted shapes are instructions, the others are rejected by name (R109) -/

/-- An instruction exactly where the flag says that the shape is admitted, and a rejection by name elsewhere. -/
inductive Decoded.Settles : Bool → Decoded → Prop where
  | ok (i : Instr) : Settles true (.ok i)
  | notAdmitted (name : String) : Settles false (.notAdmitted name)

theorem Decoded.binary_settles (name : String) (mk : Dest → Source → Instr) (o0 o1 : Operand) :
    Settles ((o0.kind.toNat == 1 || o0.kind.toNat == 2) && o1.kind.toNat != 0) (binary name mk o0 o1) := by
  cases o0 with
  | none | imm => exact .notAdmitted name
  | reg | mem =>
    cases o1 with
    | none => exact .notAdmitted name
    | reg | mem | imm => exact .ok _

theorem Decoded.unary_settles (name : String) (mk : Source → Instr) (o0 o1 : Operand) :
    Settles (o0.kind.toNat != 0 && o1.kind.toNat == 0) (unary name mk o0 o1) := by
  cases o0 with
  | none => exact .notAdmitted name
  | reg | mem | imm =>
    cases o1 with
    | none => exact .ok _
    | reg | mem | imm => exact .notAdmitted name

theorem Decoded.immediate_settles (name : String) (mk : Imm → Instr) (o0 o1 : Operand) :
    Settles (o0.kind.toNat == 3 && o1.kind.toNat == 0) (immediate name mk o0 o1) := by
  cases o0 with
  | none | reg | mem => exact .notAdmitted name
  | imm =>
    cases o1 with
    | none => exact .ok _
    | reg | mem | imm => exact .notAdmitted name

theorem Decoded.memory_settles (name : String) (mk : OpWidth → Word → Instr) (o0 o1 : Operand) :
    Settles (o0.kind.toNat == 2 && o1.kind.toNat == 0) (memory name mk o0 o1) := by
  cases o0 with
  | none | reg | imm => exact .notAdmitted name
  | mem =>
    cases o1 with
    | none => exact .ok _
    | reg | mem | imm => exact .notAdmitted name

theorem Decoded.bare_settles (name : String) (i : Instr) (o0 o1 : Operand) :
    Settles (o0.kind.toNat == 0 && o1.kind.toNat == 0) (bare name i o0 o1) := by
  cases o0 with
  | reg | mem | imm => exact .notAdmitted name
  | none =>
    cases o1 with
    | none => exact .ok _
    | reg | mem | imm => exact .notAdmitted name

/-- Int's shape looks at the width code of its immediate too. -/
theorem Decoded.vector_settles (name : String) (mk : Byte → Instr) (k w : BitVec 2) (p : Word) (o1 : Operand) :
    Settles (k.toNat == 3 && w.toNat == 0 && o1.kind.toNat == 0) (vector name mk (.ofFields k w p) o1) := by
  obtain rfl | rfl | rfl | rfl := kindCode_cases k
  · exact .notAdmitted name
  · exact .notAdmitted name
  · exact .notAdmitted name
  · obtain rfl | rfl | rfl | rfl := kindCode_cases w
    · cases o1 with
      | none => exact .ok _
      | reg | mem | imm => exact .notAdmitted name
    · exact .notAdmitted name
    · exact .notAdmitted name
    · exact .notAdmitted name

theorem admitted_of_unrecognized {mn : Nat} (k0 k1 w0 : Nat) (free : mn = 0 ∨ 0x0E ≤ mn) :
    Machine.admitted mn k0 k1 w0 = true := by
  unfold Machine.admitted
  rw [if_neg (by omega), if_neg (by omega), if_neg (by omega), if_neg (by omega), if_neg (by omega), if_neg (by omega)]

theorem Diw.shape_settles (d : Diw) : Decoded.Settles
    (Machine.admitted (Diw.mn d).toNat (Diw.kind0 d).toNat (Diw.kind1 d).toNat (Diw.width0 d).toNat) (Diw.shape d) := by
  rw [← Diw.kind_operand0, ← Diw.kind_operand1]
  unfold Diw.shape
  split
  case h_1 mn =>
    rw [admitted_of_unrecognized _ _ _ (.inl mn)]
    exact .ok _
  case h_2 mn | h_3 mn | h_4 mn | h_5 mn | h_6 mn | h_7 mn =>
    rw [mn]
    exact Decoded.binary_settles ..
  case h_8 mn =>
    rw [mn]
    exact Decoded.unary_settles ..
  case h_9 mn | h_10 mn =>
    rw [mn]
    exact Decoded.immediate_settles ..
  case h_11 mn | h_14 mn =>
    rw [mn]
    exact Decoded.bare_settles ..
  case h_12 mn =>
    rw [mn, Diw.kind_operand0]
    exact Decoded.vector_settles ..
  case h_13 mn =>
    rw [mn]
    exact Decoded.memory_settles ..
  case h_15 =>
    have free : 0x0E ≤ (Diw.mn d).toNat := by
      simp only [imp_false] at *
      omega
    rw [admitted_of_unrecognized _ _ _ (.inr free)]
    exact .ok _

theorem Decoded.Settles.ne_malformed {b : Bool} {x : Decoded} (h : Settles b x) : x ≠ .malformed := by
  cases h with
  | ok | notAdmitted => exact nofun

theorem decode_eq_malformed_iff (d : Diw) : decode d = .malformed ↔ Diw.malformed d = true := by
  unfold decode
  split
  · next h => simp [h]
  · next h => simp [h, (Diw.shape_settles d).ne_malformed]

theorem decode_eq_shape {d : Diw} (h : Diw.malformed d = false) : decode d = Diw.shape d := by
  rw [decode, h, if_neg Bool.false_ne_true]

/-- What a decoded word is: it is not malformed, and the instruction is its shape. -/
theorem decode_ok {d : Diw} {i : Instr} (h : decode d = .ok i) : Diw.malformed d = false ∧ Diw.shape d = .ok i := by
  unfold decode at h
  split at h
  · cases h
  · next sound => exact ⟨by simpa using sound, h⟩

/-- The malformed words, one condition of R110 a disjunct. -/
theorem Diw.malformed_iff (d : Diw) : Diw.malformed d = true ↔
    Diw.reserved15 d ≠ 0 ∨ Diw.reserved24 d ≠ 0 ∨ Diw.len d = 0 ∨ Diw.seg d = 7 ∨ (Diw.operand0 d).fits = false ∨
    (Diw.operand1 d).fits = false := by
  simp [Diw.malformed, or_assoc]

/-- A word that is not malformed meets all the conditions of R110. -/
theorem Diw.malformed_eq_false_iff (d : Diw) : Diw.malformed d = false ↔
    Diw.reserved15 d = 0 ∧ Diw.reserved24 d = 0 ∧ Diw.len d ≠ 0 ∧ Diw.seg d ≠ 7 ∧ (Diw.operand0 d).fits = true ∧
    (Diw.operand1 d).fits = true := by
  simp [Diw.malformed, and_assoc]

/-! #### The shape combinators, inverted -/

theorem Operand.toDest_eq_some {o : Operand} {d : Dest} : o.toDest = some d ↔ o = d.toOperand := by
  cases o <;> cases d <;> simp [Operand.toDest, Dest.toOperand]

theorem Operand.toSource_eq_some {o : Operand} {r : Source} : o.toSource = some r ↔ o = r.toOperand := by
  cases o <;> cases r <;> simp [Operand.toSource, Source.toOperand]

theorem Decoded.binary_ok {name : String} {mk : Dest → Source → Instr} {o0 o1 : Operand} {i : Instr}
    (h : Decoded.binary name mk o0 o1 = .ok i) : ∃ d r, o0 = d.toOperand ∧ o1 = r.toOperand ∧ i = mk d r := by
  unfold Decoded.binary at h
  split at h
  · next d r hd hr =>
    cases h
    exact ⟨d, r, Operand.toDest_eq_some.1 hd, Operand.toSource_eq_some.1 hr, rfl⟩
  · cases h

theorem Decoded.unary_ok {name : String} {mk : Source → Instr} {o0 o1 : Operand} {i : Instr}
    (h : Decoded.unary name mk o0 o1 = .ok i) : ∃ r, o0 = r.toOperand ∧ o1 = .none ∧ i = mk r := by
  unfold Decoded.unary at h
  split at h
  · next r hr =>
    cases h
    exact ⟨r, Operand.toSource_eq_some.1 hr, rfl, rfl⟩
  · cases h

theorem Decoded.immediate_ok {name : String} {mk : Imm → Instr} {o0 o1 : Operand} {i : Instr}
    (h : Decoded.immediate name mk o0 o1 = .ok i) : ∃ m, o0 = .imm m ∧ o1 = .none ∧ i = mk m := by
  unfold Decoded.immediate at h
  split at h
  · next m =>
    cases h
    exact ⟨m, rfl, rfl, rfl⟩
  · cases h

theorem Decoded.vector_ok {name : String} {mk : Byte → Instr} {o0 o1 : Operand} {i : Instr}
    (h : Decoded.vector name mk o0 o1 = .ok i) :
    ∃ v, o0 = .imm ⟨.w8, v⟩ ∧ o1 = .none ∧ i = mk (v.extractLsb' 0 8) := by
  unfold Decoded.vector at h
  split at h
  · next v =>
    cases h
    exact ⟨v, rfl, rfl, rfl⟩
  · cases h

theorem Decoded.memory_ok {name : String} {mk : OpWidth → Word → Instr} {o0 o1 : Operand} {i : Instr}
    (h : Decoded.memory name mk o0 o1 = .ok i) : ∃ w disp, o0 = .mem w disp ∧ o1 = .none ∧ i = mk w disp := by
  unfold Decoded.memory at h
  split at h
  · next w disp =>
    cases h
    exact ⟨w, disp, rfl, rfl, rfl⟩
  · cases h

theorem Decoded.bare_ok {name : String} {j i : Instr} {o0 o1 : Operand} (h : Decoded.bare name j o0 o1 = .ok i) :
    o0 = .none ∧ o1 = .none ∧ i = j := by
  unfold Decoded.bare at h
  split at h
  · cases h
    exact ⟨rfl, rfl, rfl⟩
  · cases h

/-- An immediate of 8 bits is the vector it is cut to. -/
theorem Imm.vector_of_wf {v : Word} (fits : Imm.wf ⟨.w8, v⟩ = true) : (v.extractLsb' 0 8).setWidth 64 = v := by
  have small : v.toNat < 2 ^ 8 := by simpa [Imm.wf, OpWidth.bytes] using fits
  refine BitVec.eq_of_toNat_eq ?_
  rw [BitVec.toNat_setWidth_of_le (by decide), BitVec.extractLsb'_toNat, Nat.shiftRight_zero, Nat.mod_eq_of_lt small]

theorem Decoded.head_unrecognized (h : Head) (mn : BitVec 8) : (Decoded.unrecognized h mn).head = h := by
  unfold Decoded.unrecognized
  split_ifs <;> rfl

theorem Decoded.operands_unrecognized (h : Head) (mn : BitVec 8) :
    (Decoded.unrecognized h mn).operands = (.none, .none) := by
  unfold Decoded.unrecognized
  split_ifs <;> rfl

/-- A row's fixed bits over the free bits of a code of the row are the code. -/
theorem Decoded.code_unrecognized (h : Head) {mn : BitVec 8} (free : 0x0E ≤ mn.toNat) :
    (Decoded.unrecognized h mn).code = mn := by
  have lt := mn.isLt
  refine BitVec.eq_of_toNat_eq ?_
  unfold Decoded.unrecognized
  split_ifs
  · rw [Instr.code, toNat_code_unrec0E, BitVec.extractLsb'_toNat, Nat.shiftRight_zero]
    omega
  · rw [Instr.code, toNat_code_unrec10, BitVec.extractLsb'_toNat, Nat.shiftRight_zero]
    omega
  · rw [Instr.code, toNat_code_unrec20, BitVec.extractLsb'_toNat, Nat.shiftRight_zero]
    omega
  · rw [Instr.code, toNat_code_unrec40, BitVec.extractLsb'_toNat, Nat.shiftRight_zero]
    omega
  · rw [Instr.code, toNat_code_unrec80, BitVec.extractLsb'_toNat, Nat.shiftRight_zero]
    omega

/-- What the shape of a word is: its head, its code and, but for the unrecognized codes, its operands. -/
theorem Diw.shape_ok {d : Diw} {i : Instr} (fits : (Diw.operand0 d).fits = true) (h : Diw.shape d = .ok i) :
    i.head = Diw.head d ∧ i.code = Diw.mn d ∧ (i.operands = (Diw.operand0 d, Diw.operand1 d) ∨
      i.operands = (.none, .none) ∧ ((Diw.mn d).toNat = 0 ∨ 0x0E ≤ (Diw.mn d).toNat)) := by
  have code {c : Nat} (mn : (Diw.mn d).toNat = c) : BitVec.ofNat 8 c = Diw.mn d := by
    rw [← mn, BitVec.ofNat_toNat, BitVec.setWidth_eq]
  unfold Diw.shape at h
  split at h
  case h_1 mn =>
    cases h
    exact ⟨rfl, code mn, .inr ⟨rfl, .inl mn⟩⟩
  case h_2 mn | h_3 mn | h_4 mn | h_5 mn | h_6 mn | h_7 mn =>
    obtain ⟨dst, r, e0, e1, rfl⟩ := Decoded.binary_ok h
    rw [e0, e1]
    exact ⟨rfl, code mn, .inl rfl⟩
  case h_8 mn =>
    obtain ⟨r, e0, e1, rfl⟩ := Decoded.unary_ok h
    rw [e0, e1]
    exact ⟨rfl, code mn, .inl rfl⟩
  case h_9 mn | h_10 mn =>
    obtain ⟨m, e0, e1, rfl⟩ := Decoded.immediate_ok h
    rw [e0, e1]
    exact ⟨rfl, code mn, .inl rfl⟩
  case h_11 mn | h_14 mn =>
    obtain ⟨e0, e1, rfl⟩ := Decoded.bare_ok h
    rw [e0, e1]
    exact ⟨rfl, code mn, .inl rfl⟩
  case h_12 mn =>
    obtain ⟨v, e0, e1, rfl⟩ := Decoded.vector_ok h
    rw [e0] at fits
    rw [e0, e1, ← Imm.vector_of_wf fits]
    exact ⟨rfl, code mn, .inl (by rw [Byte.extractLsb'_setWidth]; rfl)⟩
  case h_13 mn =>
    obtain ⟨w, disp, e0, e1, rfl⟩ := Decoded.memory_ok h
    rw [e0, e1]
    exact ⟨rfl, code mn, .inl rfl⟩
  case h_15 =>
    have free : 0x0E ≤ (Diw.mn d).toNat := by
      simp only [imp_false] at *
      omega
    cases h
    exact ⟨Decoded.head_unrecognized .., Decoded.code_unrecognized _ free,
      .inr ⟨Decoded.operands_unrecognized .., .inr free⟩⟩

/-! #### The opcode table (R106) -/

/-- Headers are equal when their fields are (R101); `LEN` and `SEG` stand together here. -/
theorem header_ext {a b : BitVec 32} (mn : a.extractLsb' 0 8 = b.extractLsb' 0 8)
    (lenSeg : a.extractLsb' 8 7 = b.extractLsb' 8 7) (low : a.extractLsb' 15 1 = b.extractLsb' 15 1)
    (kind0 : a.extractLsb' 16 2 = b.extractLsb' 16 2) (kind1 : a.extractLsb' 18 2 = b.extractLsb' 18 2)
    (width0 : a.extractLsb' 20 2 = b.extractLsb' 20 2) (width1 : a.extractLsb' 22 2 = b.extractLsb' 22 2)
    (high : a.extractLsb' 24 8 = b.extractLsb' 24 8) : a = b := by
  have fields (h : BitVec 32) : h.extractLsb' 24 8 ++ h.extractLsb' 22 2 ++ h.extractLsb' 20 2 ++ h.extractLsb' 18 2 ++
      h.extractLsb' 16 2 ++ h.extractLsb' 15 1 ++ h.extractLsb' 8 7 ++ h.extractLsb' 0 8 = h := by
    simp only [BitVec.extractLsb'_append_extractLsb'_eq_extractLsb', BitVec.extractLsb'_eq_self]
  rw [← fields a, ← fields b, mn, lenSeg, low, kind0, kind1, width0, width1, high]

/-- The nineteen rows of spec/opcode_table.json. -/
def tableRows : List TableRow :=
  [⟨"Mov", 0x00000001, 0xFF0080FF⟩,
   ⟨"Add", 0x00000002, 0xFF0080FF⟩,
   ⟨"Sub", 0x00000003, 0xFF0080FF⟩,
   ⟨"And", 0x00000004, 0xFF0080FF⟩,
   ⟨"Or", 0x00000005, 0xFF0080FF⟩,
   ⟨"Cmp", 0x00000006, 0xFF0080FF⟩,
   ⟨"Jmp", 0x00000007, 0xFF0C80FF⟩,
   ⟨"Je", 0x00030008, 0xFF0F80FF⟩,
   ⟨"Jne", 0x00030009, 0xFF0F80FF⟩,
   ⟨"Cli", 0x0000000A, 0xFF0F80FF⟩,
   ⟨"Int", 0x0003000B, 0xFF3F80FF⟩,
   ⟨"Lgdt", 0x0002000C, 0xFF0F80FF⟩,
   ⟨"Hlt", 0x0000000D, 0xFF0F80FF⟩,
   ⟨"unrecognized__MN_0x00", 0x00000000, 0xFF0080FF⟩,
   ⟨"unrecognized__MN_0x0E-0x0F", 0x0000000E, 0xFF0080FE⟩,
   ⟨"unrecognized__MN_0x10-0x1F", 0x00000010, 0xFF0080F0⟩,
   ⟨"unrecognized__MN_0x20-0x3F", 0x00000020, 0xFF0080E0⟩,
   ⟨"unrecognized__MN_0x40-0x7F", 0x00000040, 0xFF0080C0⟩,
   ⟨"unrecognized__MN_0x80-0xFF", 0x00000080, 0xFF008080⟩]

theorem Instr.row_mem_tableRows (i : Instr) : i.row ∈ tableRows := by
  cases i with
  | _ =>
    simp only [Instr.row]
    decide

/-- Rows that agree where both masks look are one row. -/
theorem tableRows_agree : ∀ t ∈ tableRows, ∀ u ∈ tableRows, t.pattern &&& u.mask = u.pattern &&& t.mask → t = u := by
  decide

/-- Every row leaves `LEN`, `SEG` and `W1` free and asks for clear reserved bits. -/
theorem tableRows_common_fields : ∀ t ∈ tableRows,
    t.mask.extractLsb' 8 7 = 0 ∧ t.pattern.extractLsb' 8 7 = 0 ∧ t.pattern.extractLsb' 15 1 = 0 ∧
    t.mask.extractLsb' 22 2 = 0 ∧ t.pattern.extractLsb' 22 2 = 0 ∧ t.pattern.extractLsb' 24 8 = 0 := by
  decide

theorem Instr.code_fits_row (i : Instr) :
    i.code &&& i.row.mask.extractLsb' 0 8 = i.row.pattern.extractLsb' 0 8 := by
  cases i with
  | unrec0E h lo | unrec10 h lo | unrec20 h lo | unrec40 h lo | unrec80 h lo =>
    simp only [Instr.code, Instr.row]
    revert lo
    decide
  | _ =>
    simp only [Instr.code, Instr.row]
    decide

/-- A row looks at the operand kinds that every operand of its mnemonic has, or at none. -/
theorem Instr.kinds_fit_row (i : Instr) :
    i.operands.1.kind &&& i.row.mask.extractLsb' 16 2 = i.row.pattern.extractLsb' 16 2 ∧
    i.operands.2.kind &&& i.row.mask.extractLsb' 18 2 = i.row.pattern.extractLsb' 18 2 := by
  cases i with
  | mov h d r | add h d r | sub h d r | and h d r | or h d r | cmp h d r =>
    simp only [Instr.row, Instr.operands]
    generalize d.toOperand.kind = k0
    generalize r.toOperand.kind = k1
    revert k0 k1
    decide
  | jmp h r =>
    simp only [Instr.row, Instr.operands]
    generalize r.toOperand.kind = k0
    revert k0
    decide
  | _ =>
    simp only [Instr.row, Instr.operands, Operand.kind]
    decide

/-- The rows of the unrecognized codes leave the operand kinds free. -/
theorem Instr.unrecognized_row_leaves_kinds_free {i : Instr} (free : i.code.toNat = 0 ∨ 0x0E ≤ i.code.toNat)
    (k0 k1 : BitVec 2) : k0 &&& i.row.mask.extractLsb' 16 2 = i.row.pattern.extractLsb' 16 2 ∧
      k1 &&& i.row.mask.extractLsb' 18 2 = i.row.pattern.extractLsb' 18 2 := by
  cases i with
  | unrec00 | unrec0E | unrec10 | unrec20 | unrec40 | unrec80 =>
    simp only [Instr.row]
    revert k0 k1
    decide
  | _ =>
    refine absurd free ?_
    simp only [Instr.code]
    decide

/-- Only Int's row looks at `W0`, which it asks to be 0. -/
theorem Instr.width_fits_row {i : Instr} {w : BitVec 2} (vector : ∀ h vec, i = .int h vec → w = 0) :
    w &&& i.row.mask.extractLsb' 20 2 = i.row.pattern.extractLsb' 20 2 := by
  cases i with
  | int h vec =>
    rw [vector h vec rfl]
    simp only [Instr.row]
    decide
  | _ =>
    simp only [Instr.row]
    clear vector
    revert w
    decide

/-- An 8-bit immediate has width code 0. -/
theorem Operand.width_of_ofFields_eq_byte {k w : BitVec 2} {p v : Word}
    (h : Operand.ofFields k w p = .imm ⟨.w8, v⟩) : w = 0 := by
  have width : OpWidth.w8 = OpWidth.ofCode w := congrArg Imm.width (Operand.ofFields_eq_imm h)
  rw [← OpWidth.code_ofCode w, ← width]
  rfl

/-- The header of a word belongs to the row of an instruction whose code and operands the word carries. -/
theorem Instr.row_holds_of_carried {i : Instr} {d : Diw} (low : Diw.reserved15 d = 0) (high : Diw.reserved24 d = 0)
    (code : i.code = Diw.mn d) (operands : i.operands = (Diw.operand0 d, Diw.operand1 d) ∨
      i.operands = (.none, .none) ∧ ((Diw.mn d).toNat = 0 ∨ 0x0E ≤ (Diw.mn d).toNat)) :
    i.row.holds (Diw.header d) = true := by
  obtain ⟨lenSegMask, lenSeg, low', widthMask, width, high'⟩ := tableRows_common_fields _ i.row_mem_tableRows
  have kinds : Diw.kind0 d &&& i.row.mask.extractLsb' 16 2 = i.row.pattern.extractLsb' 16 2 ∧
      Diw.kind1 d &&& i.row.mask.extractLsb' 18 2 = i.row.pattern.extractLsb' 18 2 := by
    obtain carried | ⟨-, free⟩ := operands
    · have := i.kinds_fit_row
      rwa [carried, Diw.kind_operand0, Diw.kind_operand1] at this
    · exact Instr.unrecognized_row_leaves_kinds_free (code ▸ free) _ _
  have width0 : Diw.width0 d &&& i.row.mask.extractLsb' 20 2 = i.row.pattern.extractLsb' 20 2 := by
    refine Instr.width_fits_row ?_
    rintro h vec rfl
    obtain carried | ⟨none, -⟩ := operands
    · exact Operand.width_of_ofFields_eq_byte (congrArg Prod.fst carried).symm
    · cases none
  have mn : Diw.mn d &&& i.row.mask.extractLsb' 0 8 = i.row.pattern.extractLsb' 0 8 := code ▸ i.code_fits_row
  refine beq_iff_eq.2 (header_ext ?_ ?_ ?_ ?_ ?_ ?_ ?_ ?_) <;> rw [BitVec.extractLsb'_and]
  · exact mn
  · rw [lenSegMask, lenSeg]
    exact BitVec.and_zero
  · rw [show (Diw.header d).extractLsb' 15 1 = 0 from low, low']
    exact BitVec.zero_and
  · exact kinds.1
  · exact kinds.2
  · exact width0
  · rw [widthMask, width]
    exact BitVec.and_zero
  · rw [show (Diw.header d).extractLsb' 24 8 = 0 from high, high']
    exact BitVec.zero_and

/-- Settles O2: the word is not malformed, and carries the head, the code and the operands of its shape. -/
theorem decodedInstructionFitsItsTableRow : Obligations.DecodedInstructionFitsItsTableRow := by
  intro d i h
  obtain ⟨sound, shape⟩ := decode_ok h
  obtain ⟨low, high, len, -, fits0, fits1⟩ := (Diw.malformed_eq_false_iff d).1 sound
  obtain ⟨head, code, operands⟩ := Diw.shape_ok fits0 shape
  have length : i.head.len = Diw.len d := congrArg Head.len head
  refine ⟨?_, length, code, Instr.row_holds_of_carried low high code operands⟩
  have headWf : i.head.wf = true := by rw [Head.wf, length]; exact bne_iff_ne.2 len
  rw [Instr.wf_eq, headWf]
  obtain carried | ⟨none, -⟩ := operands
  · rw [carried, fits0, fits1]
    rfl
  · rw [none]
    rfl

/-- Settles O3: a header in two rows makes them agree where both masks look. -/
theorem tableRowsNeverOverlap : Obligations.TableRowsNeverOverlap := by
  intro h i j hi hj
  refine tableRows_agree _ i.row_mem_tableRows _ j.row_mem_tableRows ?_
  rw [← beq_iff_eq.1 hi, ← beq_iff_eq.1 hj, BitVec.and_assoc, BitVec.and_assoc, BitVec.and_comm i.row.mask]

/-! #### The malformed words in numbers (R110) -/

/-- A field has a value exactly when the number it stands for is the value's; `fieldOf` is the other reading of it. -/
theorem field_eq_iff {k : Nat} (h : BitVec k) (lo n : Nat) (v : BitVec n) :
    h.extractLsb' lo n = v ↔ h.toNat / 2 ^ lo % 2 ^ n = v.toNat := by
  rw [← BitVec.toNat_inj, BitVec.extractLsb'_toNat, Nat.shiftRight_eq_div_pow]

theorem toNat_field {k : Nat} (h : BitVec k) (lo n : Nat) : (h.extractLsb' lo n).toNat = h.toNat / 2 ^ lo % 2 ^ n :=
  ((field_eq_iff h lo n _).1 rfl).symm

theorem OpWidth.bytes_ofCode (c : BitVec 2) : (OpWidth.ofCode c).bytes = 2 ^ c.toNat := by
  revert c
  decide

/-- An operand does not fit its width exactly when it is an immediate with a payload of more bits. -/
theorem Operand.fits_ofFields_eq_false_iff (k w : BitVec 2) (p : Word) :
    (Operand.ofFields k w p).fits = false ↔ k.toNat = 3 ∧ 2 ^ (8 * 2 ^ w.toNat) ≤ p.toNat := by
  obtain rfl | rfl | rfl | rfl := kindCode_cases k
  · simp [Operand.ofFields]
  · simp [Operand.ofFields]
  · simp [Operand.ofFields]
  · simp [Operand.ofFields, Imm.wf, OpWidth.bytes_ofCode]

/-- Settles O4: the six ways a word is malformed, each as the number of its field. -/
theorem malformedWordsAreExactlyThese : Obligations.MalformedWordsAreExactlyThese := by
  intro d
  have lt := (Diw.header d).isLt
  have low : Diw.reserved15 d ≠ 0 ↔ (Diw.header d).getLsbD 15 = true := by
    rw [Ne, Diw.reserved15, field_eq_iff, BitVec.getLsbD, Nat.testBit_eq_decide_div_mod_eq, decide_eq_true_eq]
    show ¬ _ = 0 ↔ _
    omega
  have high : Diw.reserved24 d ≠ 0 ↔ 2 ^ 24 ≤ (Diw.header d).toNat := by
    rw [Ne, Diw.reserved24, field_eq_iff]
    show ¬ _ = 0 ↔ _
    omega
  have len : Diw.len d = 0 ↔ (Diw.header d).toNat / 2 ^ 8 % 16 = 0 := field_eq_iff ..
  have seg : Diw.seg d = 7 ↔ (Diw.header d).toNat / 2 ^ 12 % 8 = 7 := field_eq_iff ..
  have code (lo : Nat) : ((Diw.header d).extractLsb' lo 2).toNat = (Diw.header d).toNat / 2 ^ lo % 4 := toNat_field ..
  have fits0 := Operand.fits_ofFields_eq_false_iff (Diw.kind0 d) (Diw.width0 d) (Diw.payload0 d)
  have fits1 := Operand.fits_ofFields_eq_false_iff (Diw.kind1 d) (Diw.width1 d) (Diw.payload1 d)
  rw [Diw.kind0, Diw.width0, code, code] at fits0
  rw [Diw.kind1, Diw.width1, code, code] at fits1
  rw [decode_eq_malformed_iff, Diw.malformed_iff, low, high, len, seg]
  exact or_congr_right (or_congr_right (or_congr_right (or_congr_right (or_congr fits0 fits1))))

/-- Settles O5: the shape settles it. -/
theorem admittedShapesDecodeAndOthersAreRejected : Obligations.AdmittedShapesDecodeAndOthersAreRejected := by
  intro d sound
  have settles := Diw.shape_settles d
  rw [Ne, decode_eq_malformed_iff, Bool.not_eq_true] at sound
  rw [decode_eq_shape sound]
  generalize Diw.shape d = x at settles
  generalize Machine.admitted _ _ _ _ = b at settles
  cases settles with
  | ok i => exact ⟨i, rfl⟩
  | notAdmitted name => exact ⟨name, rfl⟩

/-- Settles O6: eight words, each run through the decoder. -/
theorem wordsOfTheSpecDecodeAsItSays : Obligations.WordsOfTheSpecDecodeAsItSays := by
  unfold Obligations.WordsOfTheSpecDecodeAsItSays
  decide

/-- Settles O7: a finite table, every one of the 256 ids looked up. -/
theorem registerIdsNameTheTableOfViews : Obligations.RegisterIdsNameTheTableOfViews := by
  unfold Obligations.RegisterIdsNameTheTableOfViews
  decide

end Sys2Proof

namespace Sys2Proof.Machine

/-! ### Views written and read back (40_block_primitives.md R136 to R138) -/

/-- A write puts the low bits of the value in the bits of the view. -/
theorem View.getLsbD_merge_inside (v : View) (old x : Word) {i : Nat} (inside : i < v.width) :
    (v.merge old x).getLsbD (v.lo + i) = x.getLsbD i := by
  cases v with
  | low8 r => exact (getLsbD_merge_low8 r old x _).trans (by simp_all [View.lo, View.width])
  | high8 r => exact (getLsbD_merge_high8 r old x _).trans (by simp_all [View.lo, View.width]; omega)
  | bits16 r => exact (getLsbD_merge_bits16 r old x _).trans (by simp_all [View.lo, View.width])
  | bits32 r => exact (getLsbD_merge_bits32 r old x _).trans (by simp_all [View.lo, View.width])
  | bits64 r => exact congrArg x.getLsbD (Nat.zero_add i)

/-- A view written reads back the value modulo two to its width. -/
theorem Gprs.toNat_read_write (g : Gprs) (v : View) (x : Word) :
    ((g.write v x).read v).toNat = x.toNat % 2 ^ v.width := by
  refine Nat.eq_of_testBit_eq fun i => ?_
  rw [Nat.testBit_mod_two_pow, BitVec.testBit_toNat, BitVec.testBit_toNat, Gprs.getLsbD_read, Gprs.get_write_cell]
  by_cases inside : i < v.width
  · rw [if_pos inside, v.getLsbD_merge_inside _ _ inside, decide_eq_true inside, Bool.true_and]
  · rw [if_neg inside, decide_eq_false inside, Bool.false_and]

/-- Settles O10: one clause a width, each the general read-back. -/
theorem writtenViewReadsBack : Obligations.WrittenViewReadsBack := by
  intro g x
  refine ⟨fun r => g.toNat_read_write (.low8 r) x, fun r => g.toNat_read_write (.high8 r) x,
    fun r => g.toNat_read_write (.bits16 r) x, fun r => g.toNat_read_write (.bits32 r) x, fun r => ?_⟩
  rw [Gprs.read_bits64]
  exact g.get_write_cell (.bits64 r) x

/-- Two views of one cell are read alike when the bits of the view read are. -/
theorem Gprs.read_congr {g k : Gprs} {v : View}
    (bits : ∀ i < v.width, (g.get v.cell).getLsbD (v.lo + i) = (k.get v.cell).getLsbD (v.lo + i)) :
    g.read v = k.read v := by
  refine BitVec.eq_of_getLsbD_eq fun i _ => ?_
  rw [Gprs.getLsbD_read, Gprs.getLsbD_read]
  by_cases inside : i < v.width
  · rw [if_pos inside, if_pos inside, bits i inside]
  · rw [if_neg inside, if_neg inside]

/-- Settles O11: bit by bit, the two halves write disjoint bits of one cell. -/
theorem byteHalvesAreIndependent : Obligations.ByteHalvesAreIndependent := by
  intro g r x y
  have low (g : Gprs) (x : Word) (i : Nat) : ((g.write (.low8 r.cell) x).get r.cell).getLsbD i =
      if i < 8 then x.getLsbD i else (g.get r.cell).getLsbD i :=
    (congrArg (BitVec.getLsbD · i) (g.get_write_cell (.low8 r.cell) x)).trans (getLsbD_merge_low8 ..)
  have high (g : Gprs) (y : Word) (i : Nat) : ((g.write (.high8 r) y).get r.cell).getLsbD i =
      if 8 ≤ i ∧ i < 16 then y.getLsbD (i - 8) else (g.get r.cell).getLsbD i :=
    (congrArg (BitVec.getLsbD · i) (g.get_write_cell (.high8 r) y)).trans (getLsbD_merge_high8 ..)
  refine ⟨Gprs.ext_get fun q => ?_, Gprs.read_congr fun i inside => ?_, Gprs.read_congr fun i inside => ?_⟩
  · by_cases own : q = r.cell
    · subst own
      refine BitVec.eq_of_getLsbD_eq fun i _ => ?_
      rw [low, high, high, low]
      by_cases lowHalf : i < 8
      · have : ¬ (8 ≤ i ∧ i < 16) := by omega
        rw [if_pos lowHalf, if_pos lowHalf, if_neg this]
      · rw [if_neg lowHalf, if_neg lowHalf]
    · rw [Gprs.get_write_ne _ (.high8 r) y own, Gprs.get_write_ne _ (.low8 r.cell) x own,
        Gprs.get_write_ne _ (.low8 r.cell) x own, Gprs.get_write_ne _ (.high8 r) y own]
  · exact (low g x _).trans (if_neg (by simp [View.lo]))
  · have : i < 8 := inside
    exact (high g y _).trans (if_neg (by simp [View.lo]; omega))

theorem regWrite_view {s : State} {id : BitVec 8} {v : View} (h : RegName.ofId id = .view v) (x : Word) :
    regWrite s id x = .ok (s.setGpr (s.gpr.write v x)) := by
  rw [regWrite, h]

theorem regWrite_seg {s : State} {id : BitVec 8} {q : SegReg} (h : RegName.ofId id = .seg q) (x : Word) :
    regWrite s id x = .ok (s.setSeg (s.seg.set q (x.extractLsb' 0 16))) := by
  rw [regWrite, h]

theorem regRead_unmapped {s : State} {id : BitVec 8} (h : RegName.ofId id = .unmapped) :
    regRead s id = unmapped s id 0 := by
  rw [regRead, h]

theorem regWrite_unmapped {s : State} {id : BitVec 8} (h : RegName.ofId id = .unmapped) (x : Word) :
    regWrite s id x = unmapped s id s := by
  rw [regWrite, h]

theorem unmapped_of_zero {α : Type} {s : State} (policy : s.cfg.unmappedReg = .zero) (id : BitVec 8) (d : α) :
    unmapped s id d = .ok d := by
  rw [unmapped, policy]

theorem unmapped_of_fault {α : Type} {s : State} (policy : s.cfg.unmappedReg = .fault) (id : BitVec 8) (d : α) :
    unmapped s id d = .error (.fail (.unmappedRegister id)) := by
  rw [unmapped, policy]

theorem toNat_low16 (x : Word) : (x.extractLsb' 0 16).toNat = x.toNat % 2 ^ 16 := by
  rw [BitVec.extractLsb'_toNat, Nat.shiftRight_zero]

/-- Settles O12: a write to a segment register replaces it by the low 16 bits. -/
theorem segmentWriteChangesOnlyIt : Obligations.SegmentWriteChangesOnlyIt := by
  intro s id q x named
  refine ⟨_, regWrite_seg named x, ?_, fun p other => ?_, rfl⟩
  · rw [State.setSeg_seg, Segs.get_set_self, toNat_low16]
  · rw [State.setSeg_seg, Segs.get_set_ne _ _ other]

/-- Settles O13: both accesses to an unmapped id are `unmapped`, which the policy decides. -/
theorem unmappedIdsFollowThePolicy : Obligations.UnmappedIdsFollowThePolicy := by
  intro s id x unnamed
  rw [regRead_unmapped unnamed, regWrite_unmapped unnamed]
  exact ⟨fun zero => ⟨unmapped_of_zero zero id 0, unmapped_of_zero zero id s⟩,
    fun fault => ⟨unmapped_of_fault fault id 0, unmapped_of_fault fault id s⟩⟩

/-! ### Flags (40_block_primitives.md R139 to R142) -/

theorem flagGet_flagSet_ne {f g : FlagBit} (other : g.pos ≠ f.pos) (b : Bool) (w : Word) :
    flagGet g (flagSet f b w) = flagGet g w := by
  rw [flagGet, getLsbD_flagSet, if_neg other, flagGet]

/-- Each bit of the word after `IoplSet`: two bits of it are the field's. -/
theorem getLsbD_ioplSet (p : BitVec 2) (w : Word) (i : Nat) :
    (ioplSet p w).getLsbD i = if 12 ≤ i ∧ i < 14 then p.getLsbD (i - 12) else w.getLsbD i := by
  show (w.extractLsb' 14 50 ++ p ++ w.extractLsb' 0 12 : BitVec (50 + 2 + 12)).getLsbD i = _
  rw [BitVec.getLsbD_append, BitVec.getLsbD_append, BitVec.getLsbD_extractLsb', BitVec.getLsbD_extractLsb']
  by_cases below : i < 12
  · have : ¬ (12 ≤ i ∧ i < 14) := by omega
    simp [*]
  · by_cases field : i < 14
    · have : 12 ≤ i ∧ i < 14 := by omega
      have : i - 12 < 2 := by omega
      simp [*]
    · have : ¬ (12 ≤ i ∧ i < 14) := by omega
      have : ¬ i - 12 < 2 := by omega
      have : 14 + (i - 12 - 2) = i := by omega
      by_cases inWord : i < 64
      · have : i - 12 - 2 < 50 := by omega
        simp [*]
      · simp [*, BitVec.getLsbD_of_ge w i (by omega)]

/-- Settles O15: the positions are `FlagBit.pos`, and the bits after `IoplSet` are known. -/
theorem flagFieldsStandWhereTheTableSays : Obligations.FlagFieldsStandWhereTheTableSays := by
  refine ⟨fun w => ⟨rfl, rfl, rfl, rfl, rfl, rfl, rfl, rfl, rfl⟩, fun w => toNat_field w 12 2, fun p w => ⟨?_, ?_⟩⟩
  · refine BitVec.eq_of_getLsbD_eq fun i inside => ?_
    rw [ioplGet, BitVec.getLsbD_extractLsb', getLsbD_ioplSet, if_pos (by omega), decide_eq_true inside, Bool.true_and,
      Nat.add_sub_cancel_left]
  · intro i low high
    rw [getLsbD_ioplSet, if_neg (by omega)]

theorem compareFlags_eq {p : CmpGtPolicy} {w a b : Word} (h : a = b) :
    compareFlags p w a b = flagSet .carry false (flagSet .zero true w) := if_pos h

theorem compareFlags_lt {p : CmpGtPolicy} {w a b : Word} (h : a.toNat < b.toNat) :
    compareFlags p w a b = flagSet .zero false (flagSet .carry true w) := by
  have ne : a ≠ b := fun e => absurd h (e ▸ Nat.lt_irrefl _)
  exact (if_neg ne).trans (if_pos h)

theorem compareFlags_gt {w a b : Word} (h : b.toNat < a.toNat) :
    compareFlags .clearBoth w a b = flagSet .carry false (flagSet .zero false w) ∧
    compareFlags .unchanged w a b = w := by
  have ne : a ≠ b := fun e => absurd h (e ▸ Nat.lt_irrefl _)
  have notLt : ¬ a.toNat < b.toNat := Nat.not_lt_of_gt h
  simp only [compareFlags, if_neg ne, if_neg notLt, and_self]

/-- A comparison drives Carry and Zero only, whatever its outcome. -/
theorem getLsbD_compareFlags {i : Nat} (carry : i ≠ 0) (zero : i ≠ 6) (p : CmpGtPolicy) (w a b : Word) :
    (compareFlags p w a b).getLsbD i = w.getLsbD i := by
  have kept (f g : FlagBit) (x y : Bool) (hf : i ≠ f.pos) (hg : i ≠ g.pos) :
      (flagSet f x (flagSet g y w)).getLsbD i = w.getLsbD i := by
    rw [getLsbD_flagSet, if_neg hf, getLsbD_flagSet, if_neg hg]
  obtain lt | eq | gt := Nat.lt_trichotomy a.toNat b.toNat
  · rw [compareFlags_lt lt]
    exact kept .zero .carry false true zero carry
  · rw [compareFlags_eq (BitVec.eq_of_toNat_eq eq)]
    exact kept .carry .zero false true carry zero
  · cases p with
    | clearBoth =>
      rw [(compareFlags_gt gt).1]
      exact kept .carry .zero false false carry zero
    | unchanged => rw [(compareFlags_gt gt).2]

/-- Settles O16: the two setters of each outcome, of which the outer one keeps the inner one's bit. -/
theorem compareSetsZeroAndCarryOnly : Obligations.CompareSetsZeroAndCarryOnly := by
  intro p w a b
  have carryOutside (x y : Bool) : flagGet .zero (flagSet .carry x (flagSet .zero y w)) = y := by
    rw [flagGet_flagSet_ne (by decide), flagGet_flagSet_self]
  have zeroOutside (x y : Bool) : flagGet .carry (flagSet .zero x (flagSet .carry y w)) = y := by
    rw [flagGet_flagSet_ne (by decide), flagGet_flagSet_self]
  refine ⟨fun eq => ?_, fun lt => ?_, fun gt clear => ?_, fun gt kept => ?_, fun i carry zero => ?_⟩
  · rw [compareFlags_eq eq]
    exact ⟨carryOutside .., flagGet_flagSet_self ..⟩
  · rw [compareFlags_lt lt]
    exact ⟨flagGet_flagSet_self .., zeroOutside ..⟩
  · rw [clear, (compareFlags_gt gt).1]
    exact ⟨carryOutside .., flagGet_flagSet_self ..⟩
  · rw [kept, (compareFlags_gt gt).2]
  · exact getLsbD_compareFlags carry zero p w a b

/-! ### Addresses (20_memory.md R70 to R74) -/

/-- Settles O17: the sums of the two formulas, in numbers. -/
theorem translatorFollowsTheModeFormula : Obligations.TranslatorFollowsTheModeFormula := by
  intro seg off
  have := seg.isLt
  refine ⟨⟨_, rfl, ?_⟩, ⟨_, rfl, ?_⟩, rfl⟩
  · simp only [BitVec.toNat_add, BitVec.toNat_mul, BitVec.toNat_setWidth, BitVec.ofNat_eq_ofNat, BitVec.toNat_ofNat]
    omega
  · simp only [BitVec.toNat_add, BitVec.toNat_setWidth]
    omega

theorem operandAddr_long {s : State} (long : s.mode = .long) (h : Head) (disp : Word) :
    operandAddr s h disp = .ok disp := if_pos long

theorem operandAddr_segmented {s : State} (segmented : s.mode ≠ .long) (h : Head) (disp : Word) :
    operandAddr s h disp = translateAddr s.mode (s.seg.get (segmentOf h)) ((disp.extractLsb' 0 32).setWidth 64) :=
  if_neg segmented

/-- Settles O18: a segment and 32 bits of displacement never reach 2^64, so the sums are exact. -/
theorem effectiveAddressOfAnOperand : Obligations.EffectiveAddressOfAnOperand := by
  intro s h disp
  have segment := (s.seg.get (h.ovr.getD .ds)).isLt
  have offset : ((disp.extractLsb' 0 32).setWidth 64).toNat = disp.toNat % 2 ^ 32 := by
    rw [BitVec.toNat_setWidth_of_le (by decide), BitVec.extractLsb'_toNat, Nat.shiftRight_zero]
  obtain ⟨⟨a, realAddr, realSum⟩, ⟨b, protAddr, protSum⟩, -⟩ := translatorFollowsTheModeFormula
    (s.seg.get (h.ovr.getD .ds)) ((disp.extractLsb' 0 32).setWidth 64)
  refine ⟨fun long => operandAddr_long long h disp, fun real => ⟨a, ?_, ?_⟩, fun prot => ⟨b, ?_, ?_⟩⟩
  · rw [operandAddr_segmented (by simp [real]), real]
    exact realAddr
  · rw [realSum, offset]
    omega
  · rw [operandAddr_segmented (by simp [prot]), prot]
    exact protAddr
  · rw [protSum, offset]
    omega

/-! ### Memory in bytes (20_memory.md R61, R62) -/

theorem Memory.readNat_lt (m : Memory) (a n : Nat) : Memory.readNat m a n < 2 ^ (8 * n) := by
  induction n generalizing a with
  | zero => exact Nat.one_pos
  | succ n ih =>
    have := (Memory.byteAt m a).isLt
    have := ih (a + 1)
    rw [Memory.readNat, Nat.mul_succ, Nat.pow_add]
    omega

/-- Byte `j` of the number that the bytes from `a` up form. -/
theorem Memory.readNat_byte (m : Memory) (a : Nat) {n j : Nat} (h : j < n) :
    Memory.readNat m a n / 2 ^ (8 * j) % 2 ^ 8 = (Memory.byteAt m (a + j)).toNat := by
  induction n generalizing a j with
  | zero => omega
  | succ n ih =>
    have := (Memory.byteAt m a).isLt
    rw [Memory.readNat]
    cases j with
    | zero =>
      simp only [Nat.mul_zero, Nat.pow_zero, Nat.div_one, Nat.add_zero]
      omega
    | succ j =>
      have shift : ((Memory.byteAt m a).toNat + 256 * Memory.readNat m (a + 1) n) / 2 ^ (8 * (j + 1)) =
          Memory.readNat m (a + 1) n / 2 ^ (8 * j) := by
        rw [Nat.mul_succ, Nat.add_comm (8 * j), Nat.pow_add, ← Nat.div_div_eq_div_mul]
        congr 1
        omega
      rw [shift, ih (a + 1) (by omega), Nat.add_right_comm, Nat.add_assoc]

/-- The number a read of up to eight bytes answers. -/
theorem toNat_readNat_word (m : Memory) (a : Nat) {n : Nat} (h : n ≤ 8) :
    (BitVec.ofNat 64 (Memory.readNat m a n)).toNat = Memory.readNat m a n := by
  rw [BitVec.toNat_ofNat]
  refine Nat.mod_eq_of_lt (Nat.lt_of_lt_of_le (Memory.readNat_lt m a n) ?_)
  exact Nat.pow_le_pow_right (by decide) (by omega)

/-- Settles O20: byte `j` of the number read is byte `j` of memory. -/
theorem memoryReadIsLittleEndian : Obligations.MemoryReadIsLittleEndian := by
  intro s a n short inside
  refine ⟨_, memRead_ok.2 ⟨inside, rfl⟩, ?_, fun j hj => ?_⟩
  · rw [toNat_readNat_word _ _ short]
    exact Memory.readNat_lt ..
  · rw [field_eq_iff, toNat_readNat_word _ _ short]
    exact Memory.readNat_byte _ _ hj

/-- Settles O21: the rules for the bytes inside and outside a write. -/
theorem memoryWriteStoresItsBytesOnly : Obligations.MemoryWriteStoresItsBytesOnly := by
  intro s a v n canonical inside
  exact ⟨_, memWrite_ok.2 ⟨inside, rfl⟩, rfl,
    fun _ hj => Memory.byteAt_writeBytes_inside canonical a.toNat v hj,
    fun _ outside => Memory.byteAt_writeBytes_outside s.mem v outside⟩

end Sys2Proof.Machine

namespace Sys2Proof.Machine

/-! ### What is written back (41_engine_cycle.md R169, R170) -/

theorem writeBack_mem_long {s : State} (long : s.mode = .long) (h : Head) (w : OpWidth) (disp v : Word) :
    writeBack s h (.mem w disp) v = .ok s := if_pos long

theorem writeBack_mem {s : State} {h : Head} {disp a : Word} (segmented : s.mode ≠ .long)
    (addr : operandAddr s h disp = .ok a) (w : OpWidth) (v : Word) :
    writeBack s h (.mem w disp) v = memWrite s a (storeBytes s w) v := by
  refine (if_neg segmented).trans ?_
  rw [addr, res_ok_bind]

theorem registerHolding_view {s : State} {id : BitVec 8} {v : View} (named : RegName.ofId id = .view v) (x : Word) :
    registerHolding s id x = s.setGpr (s.gpr.write v x) := by
  rw [registerHolding, named]
  rfl

theorem registerHolding_seg {s : State} {id : BitVec 8} {q : SegReg} (named : RegName.ofId id = .seg q) (x : Word) :
    registerHolding s id x = s.setSeg (s.seg.set q (x.setWidth 16)) := by
  rw [registerHolding, named]
  rfl

theorem registerHolding_unmapped {s : State} {id : BitVec 8} (unnamed : RegName.ofId id = .unmapped) (x : Word) :
    registerHolding s id x = s := by
  rw [registerHolding, unnamed]

theorem resultAt_mem_long {s : State} (long : s.mode = .long) (h : Head) (w : OpWidth) (disp v : Word) :
    resultAt s h (.mem w disp) v = s := by
  rw [resultAt, long]

theorem resultAt_mem {s : State} {h : Head} {disp a : Word} (segmented : s.mode ≠ .long)
    (addr : operandAddr s h disp = .ok a) (w : OpWidth) (v : Word) :
    resultAt s h (.mem w disp) v = s.setMem (Memory.writeBytes s.mem a.toNat v (storeBytes s w)) := by
  rw [resultAt]
  split
  · next long => exact absurd long segmented
  · next b found _ =>
    obtain rfl : b = a := Except.ok.inj (found.symm.trans addr)
    rfl
  · next found _ => cases found.symm.trans addr

/-- A destination that can be written holds the result afterwards, and nothing else has changed. -/
theorem writeBack_of_canWrite {s : State} {h : Head} {d : Dest} (writable : CanWrite s h d) (v : Word) :
    writeBack s h d v = .ok (resultAt s h d v) := by
  cases d with
  | reg id =>
    show regWrite s id v = .ok (registerHolding s id v)
    cases named : RegName.ofId id with
    | view w => rw [regWrite_view named, registerHolding_view named]
    | seg q => rw [regWrite_seg named, registerHolding_seg named, BitVec.setWidth_eq_extractLsb' (by decide)]
    | unmapped =>
      have ignored : s.cfg.unmappedReg = .zero := writable.resolve_left (absurd named)
      rw [regWrite_unmapped named, unmapped_of_zero ignored, registerHolding_unmapped named]
  | mem w disp =>
    by_cases long : s.mode = .long
    · rw [writeBack_mem_long long, resultAt_mem_long long]
    · obtain ⟨a, addr, inside⟩ := writable.resolve_left long
      rw [writeBack_mem long addr, resultAt_mem long addr]
      exact memWrite_ok.2 ⟨inside, rfl⟩

/-- Settles O24: the source is read, then the destination is written. -/
theorem movPutsTheSourceInTheDestination : Obligations.MovPutsTheSourceInTheDestination := by
  intro h d r s v source writable
  rw [exec_mov, source, res_ok_bind, writeBack_of_canWrite writable, finish_ok]

theorem alu_of_values {s : State} {h : Head} {d : Dest} {r : Source} {a b : Word}
    (dest : value s h (destAsSource d) = .ok a) (source : value s h r = .ok b) (op : Word → Word → Word) :
    alu op h d r s = finish s (writeBack s h d (op a b)) := by
  rw [alu_eq, dest, res_ok_bind, source, res_ok_bind]

/-- Settles O25: the four operations are one phase, which writes the result where it can be written. -/
theorem arithmeticPutsTheResultInTheDestination : Obligations.ArithmeticPutsTheResultInTheDestination := by
  intro h d r s a b dest source writable
  have result (op : Word → Word → Word) : alu op h d r s = .next (resultAt s h d (op a b)) := by
    rw [alu_of_values dest source, writeBack_of_canWrite writable, finish_ok]
  exact ⟨result fun a b => a + b, result fun a b => a - b, result fun a b => a &&& b, result fun a b => a ||| b⟩

/-- The four results in numbers, narrowed to `n` bits. -/
theorem toNat_arithmetic_narrowed {n : Nat} (fits : n ≤ 64) (a b : Word) :
    (a + b).toNat % 2 ^ n = (a.toNat + b.toNat) % 2 ^ n ∧
    (a - b).toNat % 2 ^ n = (a.toNat + (2 ^ 64 - b.toNat)) % 2 ^ n ∧
    (a &&& b).toNat % 2 ^ n = (a.toNat &&& b.toNat) % 2 ^ n ∧
    (a ||| b).toNat % 2 ^ n = (a.toNat ||| b.toNat) % 2 ^ n := by
  have narrowed (x : Nat) : x % 2 ^ 64 % 2 ^ n = x % 2 ^ n := Nat.mod_mod_of_dvd x (Nat.pow_dvd_pow 2 fits)
  rw [BitVec.toNat_add, BitVec.toNat_sub, narrowed, narrowed, Nat.add_comm (2 ^ 64 - b.toNat),
    BitVec.toNat_and, BitVec.toNat_or]
  exact ⟨rfl, rfl, rfl, rfl⟩

/-- Settles O26: the register named reads back the result, narrowed to its width. -/
theorem arithmeticWrapsAtTheDestinationWidth : Obligations.ArithmeticWrapsAtTheDestinationWidth := by
  intro h id r s a b dest source
  refine ⟨fun v named => ?_, fun q named => ?_⟩
  · have writable : CanWrite s h (.reg id) := .inl (by simp [named])
    obtain ⟨add, sub, and, or⟩ := arithmeticPutsTheResultInTheDestination h (.reg id) r s a b dest source writable
    have read (x : Word) : ((resultAt s h (.reg id) x).gpr.read v).toNat = x.toNat % 2 ^ v.width := by
      rw [show resultAt s h (.reg id) x = registerHolding s id x from rfl, registerHolding_view named,
        State.setGpr_gpr, Gprs.toNat_read_write]
    obtain ⟨sum, difference, meet, join⟩ := toNat_arithmetic_narrowed v.width_le a b
    exact ⟨_, _, _, _, add, sub, and, or, (read _).trans sum, (read _).trans difference,
      (read _).trans meet, (read _).trans join⟩
  · have writable : CanWrite s h (.reg id) := .inl (by simp [named])
    obtain ⟨add, sub, and, or⟩ := arithmeticPutsTheResultInTheDestination h (.reg id) r s a b dest source writable
    have read (x : Word) : ((resultAt s h (.reg id) x).seg.get q).toNat = x.toNat % 2 ^ 16 := by
      rw [show resultAt s h (.reg id) x = registerHolding s id x from rfl, registerHolding_seg named,
        State.setSeg_seg, Segs.get_set_self, BitVec.toNat_setWidth]
    obtain ⟨sum, difference, meet, join⟩ := toNat_arithmetic_narrowed (n := 16) (by decide) a b
    exact ⟨_, _, _, _, add, sub, and, or, (read _).trans sum, (read _).trans difference,
      (read _).trans meet, (read _).trans join⟩

/-- Settles O27: the write-back stores the bytes of the policy's width, and the rules for a write give each byte. -/
theorem movToMemoryStoresTheBytes : Obligations.MovToMemoryStoresTheBytes := by
  intro h w disp r s v a n segmented canonical source addr width inside
  have stored : n = storeBytes s w := by
    rw [width, storeBytes]
    cases s.cfg.memWriteWidth <;> cases s.mode <;> rfl
  subst stored
  refine ⟨_, movPutsTheSourceInTheDestination h (.mem w disp) r s v source (.inr ⟨a, addr, inside⟩), ?_⟩
  rw [resultAt_mem segmented addr, State.setMem_mem]
  exact ⟨fun _ hj => Memory.byteAt_writeBytes_inside canonical a.toNat v hj,
    fun _ outside => Memory.byteAt_writeBytes_outside s.mem v outside⟩

/-- Settles O28: a Memory destination in Long mode can always be written, and the result stands nowhere. -/
theorem longModeMemoryWritesAreSuppressed : Obligations.LongModeMemoryWritesAreSuppressed := by
  intro h w disp r s v long source
  have writable : CanWrite s h (.mem w disp) := .inl long
  refine ⟨?_, fun a dest => ?_⟩
  · rw [movPutsTheSourceInTheDestination h (.mem w disp) r s v source writable, resultAt_mem_long long]
  · have := arithmeticPutsTheResultInTheDestination h (.mem w disp) r s a v dest source writable
    simpa only [resultAt_mem_long long] using this

/-- Settles O29: the flags word written is the comparison's. -/
theorem cmpWritesZeroAndCarry : Obligations.CmpWritesZeroAndCarry := by
  intro h d r s a b dest source
  refine ⟨compareFlags s.cfg.cmpGt s.flags a b, ?_, compareSetsZeroAndCarryOnly s.cfg.cmpGt s.flags a b⟩
  rw [exec_cmp, dest, res_ok_bind, source, res_ok_bind, finish_ok]
  rfl

/-! ### Control transfer and the logged codes (43_control.md, 44_system.md) -/

/-- Settles O30: the operand's value is the new rip. -/
theorem jmpWritesTheTarget : Obligations.JmpWritesTheTarget := by
  intro h t s v target
  rw [exec_jmp, target, res_ok_bind, finish_ok]
  rfl

/-- Settles O31: the two branches on Zero. -/
theorem conditionalJumpsFollowZero : Obligations.ConditionalJumpsFollowZero := by
  intro h t s
  rw [exec_je, exec_jne]
  refine ⟨fun set => ?_, fun clear => ?_⟩
  · rw [if_pos set, if_pos set]
    exact ⟨rfl, rfl⟩
  · rw [clear]
    exact ⟨rfl, rfl⟩

theorem step_of_stopped {s : State} (stopped : s.engine ≠ .fetch ∨ s.stopReq = true) : step s = .next s := by
  unfold step
  split
  · rfl
  · next low =>
    have engine : s.engine ≠ .fetch := stopped.resolve_right low
    cases e : s.engine with
    | halted | faulted => rfl
    | fetch => exact absurd e engine

/-- A machine whose tick answers the same state answers it after any number of ticks. -/
theorem run_of_tick_same {M : Host.Core} {s : M.State} (tick : M.step s = .next s) (n : Nat) : M.run n s = .next s := by
  induction n with
  | zero => rfl
  | succ n ih =>
    rw [Host.Core.run, tick]
    exact ih

/-- Settles O49: each tick answers the same state. -/
theorem stoppedBlockNeverChanges : Obligations.StoppedBlockNeverChanges := by
  intro s n stopped
  exact run_of_tick_same (M := Sys2Proof.core) (step_of_stopped stopped) n

/-- Settles O32: Hlt stops the block, and a stopped block never changes. -/
theorem hltEntersHaltedForEver : Obligations.HltEntersHaltedForEver := by
  intro h s
  exact ⟨exec_hlt h s, fun n => stoppedBlockNeverChanges _ n (.inl nofun)⟩

/-- Settles O37: the code of each row in numbers. -/
theorem unrecognizedCodesAreLoggedNoOps : Obligations.UnrecognizedCodesAreLoggedNoOps := by
  intro h s
  refine ⟨rfl, fun lo => ?_, fun lo => ⟨_, toNat_code_unrec10 lo, rfl⟩, fun lo => ⟨_, toNat_code_unrec20 lo, rfl⟩,
    fun lo => ⟨_, toNat_code_unrec40 lo, rfl⟩, fun lo => ⟨_, toNat_code_unrec80 lo, rfl⟩⟩
  have code := toNat_code_unrec0E lo
  have bit := lo.isLt
  exact ⟨_, by omega, by omega, by omega, rfl⟩

/-! ### Errors raised by an operand or an access (60_exceptions.md R243 to R248) -/

/-- Settles O23: the translator is asked and refuses, for Lgdt before it reads. -/
theorem longModeReadUnderTheFaultPolicy : Obligations.LongModeReadUnderTheFaultPolicy := by
  intro s h w disp long fault
  have refused : readAddr s h disp = .error (.raise (.unsupportedTranslation (s.seg.get (h.ovr.getD .ds)) disp)) :=
    if_pos ⟨long, fault⟩
  refine ⟨?_, ?_⟩
  · show (readAddr s h disp >>= fun a => memRead s a (modeBytes s.mode)) = _
    rw [refused, res_error_bind]
  · rw [exec_lgdt, refused, res_error_bind, finish_raise]
    rfl

/-- Settles O38: the first operand that raises ends the phase. -/
theorem operandErrorsFaultTheEngineInOrder : Obligations.OperandErrorsFaultTheEngineInOrder := by
  intro h d r s k
  refine ⟨fun first i mem => ?_, fun a first second i mem => ?_, fun source => ⟨?_, ?_⟩⟩
  · obtain ⟨f, run⟩ := exec_readsBoth h d r s mem
    rw [run, first, res_error_bind, finish_raise]
    rfl
  · obtain ⟨f, run⟩ := exec_readsBoth h d r s mem
    rw [run, first, res_ok_bind, second, res_error_bind, finish_raise]
    rfl
  · rw [exec_mov, source, res_error_bind, finish_raise]
    rfl
  · rw [exec_jmp, source, res_error_bind, finish_raise]
    rfl

/-- Settles O40: both accesses to the id end in the fault of the host interface. -/
theorem unmappedOperandStopsUnderTheFaultPolicy : Obligations.UnmappedOperandStopsUnderTheFaultPolicy := by
  intro h id d r s v unnamed fault
  have read : value s h (.reg id) = .error (.fail (.unmappedRegister id)) := by
    rw [value_reg, regRead_unmapped unnamed, unmapped_of_fault fault]
  have write (x : Word) : writeBack s h (.reg id) x = .error (.fail (.unmappedRegister id)) := by
    rw [show writeBack s h (.reg id) x = regWrite s id x from rfl, regWrite_unmapped unnamed, unmapped_of_fault fault]
  refine ⟨?_, ?_, fun source => ?_, fun i mem => ?_, fun a first i mem => ?_⟩
  · rw [exec_mov, read, res_error_bind, finish_fail]
  · rw [exec_jmp, read, res_error_bind, finish_fail]
  · rw [exec_mov, source, res_ok_bind, write, finish_fail]
  · obtain ⟨f, run⟩ := exec_readsBoth h (.reg id) r s mem
    rw [run, show value s h (destAsSource (.reg id)) = _ from read, res_error_bind, finish_fail]
  · obtain ⟨f, run⟩ := exec_readsBoth h d (.reg id) s mem
    rw [run, first, res_ok_bind, read, res_error_bind, finish_fail]

/-- The second address of Lgdt's operand, where it lies in a 64-bit memory (log 20). -/
theorem toNat_add_two {a : Word} (inside : a.toNat + 2 < 2 ^ 64) : (a + 2).toNat = a.toNat + 2 := by
  rw [BitVec.toNat_add]
  exact Nat.mod_eq_of_lt inside

/-- Settles O39: the first access past the end raises. -/
theorem accessOutsideMemoryFaultsTheEngine : Obligations.AccessOutsideMemoryFaultsTheEngine := by
  intro h w disp s a addr
  refine ⟨fun r v segmented source past => ?_, fun flat small => ?_⟩
  · have store (x : Word) : writeBack s h (.mem w disp) x = .error (.raise (.outOfBounds a (storeBytes s w))) := by
      rw [writeBack_mem segmented addr]
      exact memWrite_error.2 ⟨Nat.not_le_of_lt past, rfl⟩
    refine ⟨?_, fun x dest i mem => ?_⟩
    · rw [exec_mov, source, res_ok_bind, store, finish_raise]
      rfl
    · obtain ⟨op, run⟩ := exec_arithmetic h (.mem w disp) r s mem
      have dest' : value s h (destAsSource (.mem w disp)) = .ok x := dest
      rw [run, alu_of_values dest' source, store, finish_raise]
      rfl
  · have readAt : readAddr s h disp = .ok a := (readAddr_eq_operandAddr flat).trans addr
    refine ⟨fun past => ?_, fun limitInside past => ?_⟩
    · rw [exec_lgdt, readAt, res_ok_bind, memRead_error.2 ⟨Nat.not_le_of_lt past, rfl⟩, res_error_bind, finish_raise]
      rfl
    · have second : (a + 2).toNat = a.toNat + 2 := toNat_add_two (by omega)
      have outside : ¬ inBounds s (a + 2) 4 := by
        rw [inBounds, second]
        omega
      rw [exec_lgdt, readAt, res_ok_bind, memRead_ok.2 ⟨limitInside, rfl⟩, res_ok_bind, memRead_error.2 ⟨outside, rfl⟩,
        res_error_bind, finish_raise]
      rfl

/-- Settles O36: the two reads, each little-endian, cut to the widths logged. -/
theorem lgdtLogsLimitAndBase : Obligations.LgdtLogsLimitAndBase := by
  intro h w disp s a flat addr small inside
  have readAt : readAddr s h disp = .ok a := (readAddr_eq_operandAddr flat).trans addr
  have second : (a + 2).toNat = a.toNat + 2 := toNat_add_two (by omega)
  have limitInside : inBounds s a 2 := by
    show a.toNat + 2 ≤ s.cfg.memSize
    omega
  have baseInside : inBounds s (a + 2) 4 := by
    rw [inBounds, second]
    omega
  obtain ⟨limit, readLimit, -, limitBytes⟩ := memoryReadIsLittleEndian s a 2 (by decide) limitInside
  obtain ⟨base, readBase, -, baseBytes⟩ := memoryReadIsLittleEndian s (a + 2) 4 (by decide) baseInside
  refine ⟨limit.extractLsb' 0 16, base.extractLsb' 0 32, ?_, fun j hj => ?_, fun j hj => ?_⟩
  · rw [exec_lgdt, readAt, res_ok_bind, readLimit, res_ok_bind, readBase, res_ok_bind, finish_ok]
    rfl
  · rw [BitVec.extractLsb'_extractLsb'_of_le (by omega)]
    exact limitBytes j hj
  · rw [BitVec.extractLsb'_extractLsb'_of_le (by omega), ← second]
    exact baseBytes j hj

/-! ### Frames of the instructions (40_block_primitives.md R138 (c), 41_engine_cycle.md R170 to R172) -/

/-- How an instruction with a result answers: the result written back, or a raised error and nothing else. -/
theorem exec_result {i : Instr} {h : Head} {d : Dest} {s t : State} (result : resultOf i = some (h, d))
    (run : exec i s = .next t) : (∃ v, writeBack s h d v = .ok t) ∨ ∃ k, t = s.setEngine (.faulted k) := by
  have ofAlu {op : Word → Word → Word} {r : Source} (run : alu op h d r s = .next t) :
      (∃ v, writeBack s h d v = .ok t) ∨ ∃ k, t = s.setEngine (.faulted k) := by
    obtain done | ⟨k, -, raised⟩ := finish_next.1 run
    · obtain ⟨a, -, done⟩ := res_bind_ok.1 done
      obtain ⟨b, -, done⟩ := res_bind_ok.1 done
      exact .inl ⟨op a b, done⟩
    · exact .inr ⟨k, raised⟩
  cases i with
  | mov h' d' r =>
    cases result
    obtain done | ⟨k, -, raised⟩ := finish_next.1 (exec_mov .. ▸ run)
    · obtain ⟨v, -, done⟩ := res_bind_ok.1 done
      exact .inl ⟨v, done⟩
    · exact .inr ⟨k, raised⟩
  | add | sub | and | or =>
    cases result
    exact ofAlu run
  | cmp | jmp | je | jne | cli | int | lgdt | hlt | unrec00 | unrec0E | unrec10 | unrec20 | unrec40 | unrec80 =>
    cases result

/-- Settles O41: by the four things a write-back can have done, or a raised error. -/
theorem resultInstructionsChangeOnlyTheDestination : Obligations.ResultInstructionsChangeOnlyTheDestination := by
  intro i h d s t result run
  obtain ⟨v, done⟩ | ⟨k, rfl⟩ := exec_result result run
  · obtain rfl | ⟨id, w, rfl, named, rfl⟩ | ⟨id, q, rfl, named, rfl⟩ | ⟨w, disp, a, rfl, segmented, addr, -, rfl⟩ :=
      writeBack_ok done
    · exact ⟨⟨rfl, rfl, rfl, rfl, rfl, rfl, rfl, rfl⟩, .inl rfl, fun _ _ => rfl, fun _ _ => rfl, fun _ _ => rfl,
        fun _ _ _ _ => rfl, fun _ _ _ _ _ _ _ => rfl⟩
    · refine ⟨⟨rfl, rfl, rfl, rfl, rfl, rfl, rfl, rfl⟩, .inl rfl, fun q other => ?_, fun _ _ => rfl, fun _ _ => rfl,
        fun _ _ _ _ => rfl, fun _ _ _ _ _ _ _ => rfl⟩
      exact Gprs.get_write_ne s.gpr w v (other w named)
    · refine ⟨⟨rfl, rfl, rfl, rfl, rfl, rfl, rfl, rfl⟩, .inl rfl, fun _ _ => rfl, fun p other => ?_, fun _ _ => rfl,
        fun _ _ _ _ => rfl, fun _ _ _ _ _ _ _ => rfl⟩
      exact Segs.get_set_ne s.seg _ fun e => other (e ▸ named)
    · refine ⟨⟨rfl, rfl, rfl, rfl, rfl, rfl, rfl, rfl⟩, .inl rfl, fun _ _ => rfl, fun _ _ => rfl, nofun,
        fun _ _ _ long => absurd long segmented, ?_⟩
      intro w' disp' a' dest addr' b outside
      cases dest
      cases addr.symm.trans addr'
      exact Memory.byteAt_writeBytes_outside s.mem v outside
  · exact ⟨⟨rfl, rfl, rfl, rfl, rfl, rfl, rfl, rfl⟩, .inr ⟨k, rfl⟩, fun _ _ => rfl, fun _ _ => rfl, fun _ _ => rfl,
      fun _ _ _ _ => rfl, fun _ _ _ _ _ _ _ => rfl⟩

/-- Settles O42: one clause an instruction, by what its phase answers. -/
theorem otherInstructionsChangeOneField : Obligations.OtherInstructionsChangeOneField := by
  intro h s t
  refine ⟨fun d r run => ?_, fun r run => ?_, fun i run => ?_, fun run => ?_, fun run => ?_, fun w disp run => ?_,
    fun run => ?_, fun lo run => ?_, fun lo run => ?_, fun lo run => ?_, fun lo run => ?_, fun lo run => ?_⟩
  case refine_1 =>
    obtain done | ⟨k, -, raised⟩ := finish_next.1 (exec_cmp .. ▸ run)
    · obtain ⟨a, -, done⟩ := res_bind_ok.1 done
      obtain ⟨b, -, done⟩ := res_bind_ok.1 done
      cases done
      exact .inl rfl
    · exact .inr ⟨k, raised⟩
  case refine_2 =>
    obtain done | ⟨k, -, raised⟩ := finish_next.1 (exec_jmp .. ▸ run)
    · obtain ⟨v, -, done⟩ := res_bind_ok.1 done
      cases done
      exact .inl rfl
    · exact .inr ⟨k, raised⟩
  case refine_3 =>
    rw [exec_je, exec_jne] at run
    obtain run | run := run
    · split at run <;> cases run <;> rfl
    · split at run <;> cases run <;> rfl
  case refine_6 =>
    obtain done | ⟨k, -, raised⟩ := finish_next.1 (exec_lgdt .. ▸ run)
    · obtain ⟨a, -, done⟩ := res_bind_ok.1 done
      obtain ⟨limit, -, done⟩ := res_bind_ok.1 done
      obtain ⟨base, -, done⟩ := res_bind_ok.1 done
      cases done
      exact .inl rfl
    · exact .inr ⟨k, raised⟩
  all_goals
    cases run
    rfl

end Sys2Proof.Machine

namespace Sys2Proof.Machine

/-! ### The video region and the teletype scan (40_block_primitives.md R144, R145) -/

theorem videoCellBytes_cases (c : CellBytes) : c.toNat = 1 ∨ c.toNat = 2 := by cases c <;> decide

theorem Memory.readNat_eq_zero (m : Memory) {a n : Nat} (zeros : ∀ j < n, Memory.byteAt m (a + j) = 0) :
    Memory.readNat m a n = 0 := by
  induction n generalizing a with
  | zero => rfl
  | succ n ih =>
    have first : Memory.byteAt m a = 0 := zeros 0 (Nat.succ_pos n)
    have rest (j : Nat) (hj : j < n) : Memory.byteAt m (a + 1 + j) = 0 := by
      rw [Nat.add_assoc, Nat.add_comm 1]
      exact zeros (j + 1) (Nat.succ_lt_succ hj)
    rw [Memory.readNat, first, ih rest]
    rfl

/-- A read is 0 exactly when all its bytes are. -/
theorem Memory.readNat_eq_zero_iff (m : Memory) (a n : Nat) :
    Memory.readNat m a n = 0 ↔ ∀ j < n, Memory.byteAt m (a + j) = 0 := by
  refine ⟨fun zero j hj => BitVec.eq_of_toNat_eq ?_, Memory.readNat_eq_zero m⟩
  rw [← Memory.readNat_byte m a hj, zero, Nat.zero_div]
  rfl

/-- The state in which AL stands in the lowest byte of video cell `k`. -/
def teletypeAt (s : State) (k : Nat) : State :=
  s.setMem (Memory.setByte s.mem (s.cfg.videoBase.toNat + k * s.cfg.videoCell.toNat) ((s.gpr.get .rax).extractLsb' 0 8))

section
variable {s : State} {k : Nat} (wf : s.cfg.Wf) (cell : k < 2000)
include wf cell

/-- The cells of the region are whole and lie in memory. -/
theorem videoCell_inside :
    s.cfg.videoBase.toNat + k * s.cfg.videoCell.toNat + s.cfg.videoCell.toNat ≤ s.cfg.memSize := by
  obtain ⟨region, -⟩ := wf
  have : (k + 1) * s.cfg.videoCell.toNat ≤ 2000 * s.cfg.videoCell.toNat := Nat.mul_le_mul_right _ cell
  rw [Nat.succ_mul] at this
  omega

theorem toNat_videoCellAddr :
    (videoCellAddr s k).toNat = s.cfg.videoBase.toNat + k * s.cfg.videoCell.toNat := by
  have inside := videoCell_inside wf cell
  obtain ⟨-, small⟩ := wf
  have wide := videoCellBytes_cases s.cfg.videoCell
  have lt : s.cfg.videoBase.toNat + k * s.cfg.videoCell.toNat < 2 ^ 64 := by omega
  rw [videoCellAddr, BitVec.toNat_add, BitVec.toNat_ofNat, Nat.add_mod_mod, Nat.mod_eq_of_lt lt]

/-- The scan's test of a cell. -/
theorem memRead_videoCell : ∃ c, memRead s (videoCellAddr s k) s.cfg.videoCell.toNat = .ok c ∧
    (c = 0 ↔ cellEmpty s k) := by
  have addr := toNat_videoCellAddr wf cell
  have inside : inBounds s (videoCellAddr s k) s.cfg.videoCell.toNat := by
    rw [inBounds, addr]
    exact videoCell_inside wf cell
  have short : s.cfg.videoCell.toNat ≤ 8 := by
    have := videoCellBytes_cases s.cfg.videoCell
    omega
  refine ⟨_, memRead_ok.2 ⟨inside, rfl⟩, ?_⟩
  rw [← BitVec.toNat_inj, toNat_readNat_word _ _ short, addr]
  exact Memory.readNat_eq_zero_iff ..

theorem memWrite_videoCell :
    memWrite s (videoCellAddr s k) 1 (s.gpr.read (.low8 .rax)) = .ok (teletypeAt s k) := by
  have addr := toNat_videoCellAddr wf cell
  have inside : inBounds s (videoCellAddr s k) 1 := by
    have := videoCell_inside wf cell
    have := videoCellBytes_cases s.cfg.videoCell
    rw [inBounds, addr]
    omega
  have al : (s.gpr.read (.low8 .rax)).extractLsb' 0 8 = (s.gpr.get .rax).extractLsb' 0 8 :=
    Byte.extractLsb'_setWidth _
  refine memWrite_ok.2 ⟨inside, ?_⟩
  rw [addr, teletypeAt, ← al]
  rfl

theorem teletypeFrom_of_empty (n : Nat) (empty : cellEmpty s k) :
    teletypeFrom s (n + 1) k = .ok (teletypeAt s k) := by
  obtain ⟨c, read, zero⟩ := memRead_videoCell wf cell
  rw [teletypeFrom, read, res_ok_bind, if_pos (zero.2 empty), memWrite_videoCell wf cell]

theorem teletypeFrom_of_full (n : Nat) (full : ¬ cellEmpty s k) :
    teletypeFrom s (n + 1) k = teletypeFrom s n (k + 1) := by
  obtain ⟨c, read, zero⟩ := memRead_videoCell wf cell
  rw [teletypeFrom, read, res_ok_bind, if_neg (full ∘ zero.1)]

end

section
variable {s : State} (wf : s.cfg.Wf)
include wf

/-- A scan over full cells changes nothing. -/
theorem teletypeFrom_all_full {n k : Nat} (region : k + n ≤ 2000)
    (full : ∀ j, k ≤ j → j < k + n → ¬ cellEmpty s j) : teletypeFrom s n k = .ok s := by
  induction n generalizing k with
  | zero => rfl
  | succ n ih =>
    rw [teletypeFrom_of_full wf (by omega) n (full k (Nat.le_refl k) (by omega))]
    exact ih (by omega) fun j low high => full j (by omega) (by omega)

/-- A scan stops at its first empty cell `j`. -/
theorem teletypeFrom_first_empty {n k j : Nat} (region : k + n ≤ 2000) (low : k ≤ j) (high : j < k + n)
    (empty : cellEmpty s j) (full : ∀ i, k ≤ i → i < j → ¬ cellEmpty s i) :
    teletypeFrom s n k = .ok (teletypeAt s j) := by
  induction n generalizing k with
  | zero => omega
  | succ n ih =>
    obtain rfl | later := Nat.eq_or_lt_of_le low
    · exact teletypeFrom_of_empty wf (by omega) n empty
    · rw [teletypeFrom_of_full wf (by omega) n (full k (Nat.le_refl k) later)]
      exact ih (by omega) later (by omega) fun i ge lt => full i (by omega) lt

/-- What the teletype service does: it fills the first empty cell, or finds none. -/
theorem teletype_cases : teletype s = .ok s ∨ ∃ k < 2000, cellEmpty s k ∧ teletype s = .ok (teletypeAt s k) := by
  by_cases some : ∃ k, k < 2000 ∧ cellEmpty s k
  · classical
    obtain ⟨cell, empty⟩ := Nat.find_spec some
    refine .inr ⟨Nat.find some, cell, empty, ?_⟩
    refine teletypeFrom_first_empty wf (n := 2000) (by omega) (by omega) (by omega) empty fun i _ lt => ?_
    exact fun isEmpty => Nat.find_min some lt ⟨by omega, isEmpty⟩
  · refine .inl (teletypeFrom_all_full wf (n := 2000) (by omega) fun j _ lt => ?_)
    exact fun isEmpty => some ⟨j, by omega, isEmpty⟩

end

/-- Settles O35: the scan from cell 0. -/
theorem teletypeWritesTheFirstZeroCell : Obligations.TeletypeWritesTheFirstZeroCell := by
  intro h s wf enabled sub
  rw [exec_int, dispatch_of_teletype enabled sub]
  refine ⟨fun k cell empty first => ?_, fun full => ?_⟩
  · have scan : teletype s = .ok (teletypeAt s k) :=
      teletypeFrom_first_empty wf (n := 2000) (by omega) (by omega) (by omega) empty fun i _ lt => first i lt
    rw [scan, finish_ok]
    rfl
  · have scan : teletype s = .ok s := teletypeFrom_all_full wf (n := 2000) (by omega) fun j _ lt => full j (by omega)
    rw [scan, finish_ok]

theorem byteAt_teletypeAt_ne {s : State} {k b : Nat}
    (changed : Memory.byteAt (teletypeAt s k).mem b ≠ Memory.byteAt s.mem b) :
    b = s.cfg.videoBase.toNat + k * s.cfg.videoCell.toNat := by
  by_contra other
  exact changed (Memory.byteAt_setByte_ne s.mem _ other)

/-- What a dispatch does: nothing, or for the one vector and sub-function with a service it fills an empty cell. -/
theorem dispatch_cases {s : State} (wf : s.cfg.Wf) (vec : Byte) : dispatch s vec = .ok s ∨
    ((vec = 0x10 ∧ s.gpr.read (.high8 .rax) = 0x0E) ∧
      ∃ k < 2000, cellEmpty s k ∧ dispatch s vec = .ok (teletypeAt s k)) := by
  unfold dispatch
  split
  · exact .inl rfl
  · split
    · next service => exact (teletype_cases wf).imp_right fun filled => ⟨service, filled⟩
    · exact .inl rfl

/-- Settles O43: the one byte that can change is the lowest of the cell filled. -/
theorem intChangesAtMostOneVideoByte : Obligations.IntChangesAtMostOneVideoByte := by
  intro h vec s wf
  rw [exec_int]
  obtain idle | ⟨⟨vector, sub⟩, k, cell, empty, filled⟩ := dispatch_cases wf vec
  · rw [idle, finish_ok]
    exact ⟨s, rfl, rfl, fun _ => rfl, fun b changed => absurd rfl changed, fun b c changed => absurd rfl changed⟩
  · rw [filled, finish_ok]
    refine ⟨teletypeAt s k, rfl, rfl, fun other => ?_, fun b changed => ?_, fun b c changedB changedC => ?_⟩
    · exact (other.elim (· vector) (· sub)).elim
    · exact ⟨k, cell, byteAt_teletypeAt_ne changed, empty⟩
    · rw [byteAt_teletypeAt_ne changedB, byteAt_teletypeAt_ne changedC]

/-! ### The engine (41_engine_cycle.md R160 to R164) -/

/-- Settles O44: the window is `Memory.bytes` of the address and length that the mode and the policy give. -/
theorem fetchWindowIsTheBytesAtRip : Obligations.FetchWindowIsTheBytesAtRip := by
  intro s
  refine ⟨?_, ?_, fun j b => Memory.getElem?_bytes, ?_⟩
  · have width : (fetchAddr s).toNat = s.rip.toNat % 2 ^ (8 * modeBytes s.mode) := by
      have := s.rip.isLt
      rw [fetchAddr, BitVec.toNat_ofNat]
      exact Nat.mod_eq_of_lt (Nat.lt_of_le_of_lt (Nat.mod_le ..) this)
    rw [width]
    cases s.mode <;> rfl
  · rw [fetchBytes, Memory.length_bytes, windowLength]
    cases s.cfg.fetchWindow <;> rfl
  · rw [fetchInBounds]
    cases s.cfg.fetchWindow <;> exact decide_eq_true_iff

section
variable {s : State} (running : Running s)
include running

theorem step_of_instr {i : Instr} (fetched : fetchDecode s = .instr i) :
    step s = exec i (advance i.head.len s) := by
  obtain ⟨low, fetch⟩ := running
  rw [step, low, fetch, fetched]
  rfl

theorem step_of_error {k : ErrorKind} (fetched : fetchDecode s = .error k) :
    step s = .next (s.setEngine (.faulted k)) := by
  obtain ⟨low, fetch⟩ := running
  rw [step, low, fetch, fetched]
  rfl

theorem step_of_notAdmitted {m : String} (fetched : fetchDecode s = .notAdmitted m) :
    step s = .refused (.shapeNotAdmitted m) := by
  obtain ⟨low, fetch⟩ := running
  rw [step, low, fetch, fetched]
  rfl

end

theorem fetchDecode_of_word {s : State} {d : Diw} (inside : fetchInBounds s = true)
    (word : consult s.cfg.decoder (fetchBytes s) s.mode (fetchAddr s) = some d) :
    fetchDecode s = acceptWord (fetchAddr s) d := by
  rw [fetchDecode, if_pos inside, word]

theorem fetchDecode_of_no_word {s : State} (inside : fetchInBounds s = true)
    (none : consult s.cfg.decoder (fetchBytes s) s.mode (fetchAddr s) = none) :
    fetchDecode s = .error (.decodeFailure (fetchAddr s)) := by
  rw [fetchDecode, if_pos inside, none]

theorem fetchDecode_outside {s : State} (outside : fetchInBounds s = false) :
    fetchDecode s = .error (.outOfBounds (fetchAddr s) 15) := by
  rw [fetchDecode, outside]
  rfl

/-- Settles O45: the word is accepted as its instruction, which runs after the advance. -/
theorem stepRunsTheDecodedInstruction : Obligations.StepRunsTheDecodedInstruction := by
  intro s d i running inside word decoded
  refine step_of_instr running ?_
  rw [fetchDecode_of_word inside word, acceptWord, decoded]

/-- Settles O46: no word and a malformed one are the same error of Fetch and Decode. -/
theorem decodeFailureFaultsTheEngine : Obligations.DecodeFailureFaultsTheEngine := by
  intro s running inside failed
  refine step_of_error running ?_
  obtain none | ⟨d, word, decoded⟩ := failed
  · exact fetchDecode_of_no_word inside none
  · rw [fetchDecode_of_word inside word, acceptWord, decoded]

/-- Settles O47: the check of each policy fails. -/
theorem fetchOutsideMemoryFaultsTheEngine : Obligations.FetchOutsideMemoryFaultsTheEngine := by
  intro s running
  obtain ⟨-, -, -, bound⟩ := fetchWindowIsTheBytesAtRip s
  refine ⟨fun strict past => ?_, fun clip past => ?_⟩
  · refine step_of_error running (fetchDecode_outside ?_)
    rw [strict] at bound
    exact Bool.eq_false_iff.2 fun inside => Nat.not_le_of_lt past (bound.1 inside)
  · refine step_of_error running (fetchDecode_outside ?_)
    rw [clip] at bound
    exact Bool.eq_false_iff.2 fun inside => Nat.not_lt_of_le past (bound.1 inside)

/-- Settles O48: the word is refused under its name. -/
theorem shapeNotAdmittedHasNoStep : Obligations.ShapeNotAdmittedHasNoStep := by
  intro s d m running inside word decoded
  refine step_of_notAdmitted running ?_
  rw [fetchDecode_of_word inside word, acceptWord, decoded]

/-! ### What every step keeps (10_state.md R31 to R34, 41_engine_cycle.md R172) -/

theorem Effect.keeps_construction {s t : State} (e : Effect s t) :
    t.mode = s.mode ∧ t.desc = s.desc ∧ t.gdt = s.gdt ∧ t.cfg = s.cfg ∧ t.stopReq = s.stopReq := by
  cases e with
  | _ => exact ⟨rfl, rfl, rfl, rfl, rfl⟩

/-- Settles O53: no effect touches these fields. -/
theorem stepKeepsWhatOnlyConstructionSets : Obligations.StepKeepsWhatOnlyConstructionSets := by
  intro s t h
  obtain rfl | ⟨k, rfl⟩ | ⟨i, -, run⟩ := step_cases h
  · exact ⟨rfl, rfl, rfl, rfl, rfl⟩
  · exact ⟨rfl, rfl, rfl, rfl, rfl⟩
  · exact (exec_effect run).keeps_construction

theorem Effect.flags_driven {s t : State} (e : Effect s t) :
    (∀ i, i ≠ 0 → i ≠ 6 → i ≠ 9 → t.flags.getLsbD i = s.flags.getLsbD i) ∧
    (s.flags.getLsbD 9 = false → t.flags.getLsbD 9 = false) := by
  cases e with
  | compared a b =>
    have kept {i : Nat} (carry : i ≠ 0) (zero : i ≠ 6) := getLsbD_compareFlags carry zero s.cfg.cmpGt s.flags a b
    exact ⟨fun i carry zero _ => kept carry zero, fun clear => (kept (by decide) (by decide)).trans clear⟩
  | cli =>
    have bit := getLsbD_flagSet .interrupt false s.flags
    exact ⟨fun i _ _ other => (bit i).trans (if_neg other), fun _ => (bit 9).trans (if_pos rfl)⟩
  | same | gpr | seg | mem | jump | raised | halted | logged => exact ⟨fun _ _ _ _ => rfl, id⟩

/-- Settles O54: only a comparison and Cli write the flags word. -/
theorem stepDrivesOnlyCarryZeroInterrupt : Obligations.StepDrivesOnlyCarryZeroInterrupt := by
  intro s t h
  obtain rfl | ⟨k, rfl⟩ | ⟨i, -, run⟩ := step_cases h
  · exact ⟨fun _ _ _ _ => rfl, id⟩
  · exact ⟨fun _ _ _ _ => rfl, id⟩
  · exact (exec_effect run).flags_driven

/-- Only Hlt changes the engine other than by a raised error, which changes nothing else. -/
theorem exec_engine {i : Instr} {s t : State} (run : exec i s = .next t) :
    t.engine = s.engine ∨ (∃ h, i = .hlt h ∧ t.engine = .halted) ∨ ∃ k, t = s.setEngine (.faulted k) := by
  have ofResult {h : Head} {d : Dest} (result : resultOf i = some (h, d)) :
      t.engine = s.engine ∨ ∃ k, t = s.setEngine (.faulted k) :=
    (resultInstructionsChangeOnlyTheDestination i h d s t result run).2.1
  have ofFrame {u : State} (frame : t = u) (engine : u.engine = s.engine) : t.engine = s.engine :=
    (congrArg State.engine frame).trans engine
  have ofFrameOrRaised {u : State} (framed : t = u ∨ ∃ k, t = { s with engine := .faulted k })
      (engine : u.engine = s.engine) :
      t.engine = s.engine ∨ (∃ h, i = .hlt h ∧ t.engine = .halted) ∨ ∃ k, t = s.setEngine (.faulted k) :=
    framed.imp (ofFrame · engine) .inr
  obtain ⟨cmp, jmp, jcc, cli, -, lgdt, u00, u0E, u10, u20, u40, u80⟩ := otherInstructionsChangeOneField i.head s t
  cases i with
  | mov | add | sub | and | or => exact (ofResult rfl).imp_right .inr
  | cmp h d r => exact ofFrameOrRaised (cmp d r run) rfl
  | jmp h r => exact ofFrameOrRaised (jmp r run) rfl
  | je h m => exact .inl (ofFrame (jcc m (.inl run)) rfl)
  | jne h m => exact .inl (ofFrame (jcc m (.inr run)) rfl)
  | cli h => exact .inl (ofFrame (cli run) rfl)
  | int h vec =>
    obtain done | raised := finish_next.1 (exec_int h vec s ▸ run)
    · obtain rfl | ⟨j, -, -, -, rfl⟩ := dispatch_ok done
      · exact .inl rfl
      · exact .inl rfl
    · obtain ⟨k, -, raised⟩ := raised
      exact .inr (.inr ⟨k, raised⟩)
  | lgdt h w disp => exact ofFrameOrRaised (lgdt w disp run) rfl
  | hlt h =>
    cases run
    exact .inr (.inl ⟨h, rfl, rfl⟩)
  | unrec00 h => exact .inl (ofFrame (u00 run) rfl)
  | unrec0E h lo => exact .inl (ofFrame (u0E lo run) rfl)
  | unrec10 h lo => exact .inl (ofFrame (u10 lo run) rfl)
  | unrec20 h lo => exact .inl (ofFrame (u20 lo run) rfl)
  | unrec40 h lo => exact .inl (ofFrame (u40 lo run) rfl)
  | unrec80 h lo => exact .inl (ofFrame (u80 lo run) rfl)

/-- Settles O55: an error of Fetch or Decode leaves rip, one of Execute finds it advanced. -/
theorem engineLeavesFetchOnlyByHltOrAPreciseFault : Obligations.EngineLeavesFetchOnlyByHltOrAPreciseFault := by
  intro s t running h
  obtain rfl | ⟨k, rfl⟩ | ⟨i, fetched, run⟩ := step_cases h
  · exact .inl running.2
  · exact .inr (.inr ⟨k, rfl, .inl rfl⟩)
  · obtain same | ⟨hd, rfl, halted⟩ | ⟨k, rfl⟩ := exec_engine run
    · exact .inl (same.trans running.2)
    · exact .inr (.inl ⟨halted, hd, fetched⟩)
    · exact .inr (.inr ⟨k, rfl, .inr ⟨i, fetched, rfl⟩⟩)

/-! ### Boot and the descriptor port (70_reset_and_hazards.md R280 to R282, 40_block_primitives.md R146) -/

theorem boot_some (p : BootParams) (c : Config) (m : Mode) (sec : Sector) : boot p c m (some sec) =
    (prime p (construct p c m)).setMem (Memory.load [] p.resetIp.toNat sec.toList) := rfl

theorem boot_failed_mem (p : BootParams) (c : Config) (m : Mode) : (boot p c m none).mem = [] := rfl

/-- Settles O52: the sector fits in memory. -/
theorem bootMeetsMemoryInvariant : Obligations.BootMeetsMemoryInvariant := by
  intro p c m disk fits
  cases disk with
  | none =>
    rw [MemoryInv, boot_failed_mem]
    exact ⟨Memory.wf_nil, nofun⟩
  | some sec =>
    rw [MemoryInv, boot_some]
    exact Memory.wf_load Memory.wf_nil nofun (by rw [Vector.length_toList]; exact fits)

/-- Settles O57: the fields as priming writes them, SP through its 16-bit view, and memory as the sector's copy leaves
it. -/
theorem bootEstablishesTheStateOfTheTable : Obligations.BootEstablishesTheStateOfTheTable := by
  intro p c m sec fits s
  have gpr : s.gpr = p.initGpr.write (.bits16 .rsp) (p.resetSp.setWidth 64) := rfl
  have mem : s.mem = Memory.load [] p.resetIp.toNat sec.toList := rfl
  refine ⟨rfl, rfl, rfl, rfl, rfl, rfl, rfl, rfl, rfl, rfl, fun q other => ?_, fun i => ?_, fun j hj => ?_,
    fun b outside => ?_⟩
  · rw [gpr]
    exact Gprs.get_write_ne p.initGpr (.bits16 .rsp) _ other
  · have cell := p.initGpr.get_write_cell (.bits16 .rsp) (p.resetSp.setWidth 64)
    rw [gpr, show (p.initGpr.write (.bits16 .rsp) (p.resetSp.setWidth 64)).get .rsp = _ from cell,
      getLsbD_merge_bits16]
    by_cases low : i < 16
    · rw [if_pos low, if_pos low, BitVec.getLsbD_setWidth, decide_eq_true (by omega), Bool.true_and]
    · rw [if_neg low, if_neg low]
      rfl
  · have len : j < sec.toList.length := by rwa [Vector.length_toList]
    rw [mem, Memory.byteAt_load_inside Memory.wf_nil _ len, Vector.getElem_toList]
  · rw [mem, Memory.byteAt_load_outside _ (by rwa [Vector.length_toList])]
    rfl

/-- Settles O58: the boot ends Faulted, and a faulted block never changes. -/
theorem failedDiskAbortsTheBoot : Obligations.FailedDiskAbortsTheBoot := by
  intro p c m n
  exact ⟨rfl, stoppedBlockNeverChanges _ n (.inl nofun)⟩

/-- Settles O59: a sector of zeros lists no byte, and priming writes the reset values. -/
theorem resetIsTheReferenceBoot : Obligations.ResetIsTheReferenceBoot := by
  rw [Obligations.ResetIsTheReferenceBoot, boot_some, Vector.toList_replicate, Memory.load_zeros]
  decide

theorem DescCache.get_set_self (c : DescCache) (n : DescName) (d : Descriptor) : (c.set n d).get n = d := by
  cases n <;> rfl

theorem DescCache.get_set_ne (c : DescCache) {n o : DescName} (d : Descriptor) (h : o ≠ n) :
    (c.set n d).get o = c.get o := by
  cases n <;> cases o <;> simp_all [DescCache.get, DescCache.set]

/-- Settles O60: the index is the selector without its three low bits. -/
theorem loadSegmentCopiesTheIndexedSlot : Obligations.LoadSegmentCopiesTheIndexedSlot := by
  intro s n sel
  have index : (sel.extractLsb' 3 13).toNat = sel.toNat / 8 := by
    have := sel.isLt
    rw [toNat_field]
    omega
  unfold loadSegment
  rw [index]
  refine ⟨fun e found => ?_, fun past => ?_⟩
  · rw [found]
    exact ⟨DescCache.get_set_self .., fun o other => DescCache.get_set_ne s.desc _ other, rfl⟩
  · rw [List.getElem?_eq_none past]

end Sys2Proof.Machine
